-- ==== Sys2Proof/Word.lean ====
section
/-! DEFINITION. The words of the block: bytes, banks and the program counter (00_scope.md rule R8). -/

namespace Sys2Proof

/-- A `u8`: a memory cell, an instruction byte, a whole register view (R8, R10). -/
abbrev Byte := BitVec 8

/-- A `u4`: one bank of a register (R8, R23). -/
abbrev Nibble := BitVec 4

/-- The program counter's nine bits. It holds 0..256 (R8, R31); `Safety.lean` states that bound as an invariant. -/
abbrev Pc := BitVec 9

/-- The number of memory cells (R8, R47). -/
abbrev memorySize : Nat := 256

end Sys2Proof
end

