-- ==== Sys2Proof/Syntax.lean ====
section
/-! DEFINITION. The instruction set as syntax: one constructor for each of the 71 rows of spec/opcode_table.json,
that is, one for each mnemonic and accepted addressing mode (30_encoding.md rules R64 to R70).

An operand is the instruction byte as the decoder delivers it. A register operand stays a byte, because the block
meets an invalid register code at run time and not in the decoder (R100); `WellFormed.lean` says which codes are valid. -/

namespace Sys2Proof

/-- A register code byte (10_state.md rule R22). Codes 0x01..0x12 name a view; the others are out of range (R26). -/
abbrev RegCode := Byte

/-- A direct memory address byte (R68). -/
abbrev Addr := Byte

/-- An immediate byte, taken whole and unsigned (R69). -/
abbrev Imm := Byte

/-- The operand classes (R68): register, memory, immediate. -/
inductive OpClass where
  | R
  | M
  | I
  deriving DecidableEq, Repr

/-- The six two-operand addressing modes (R65), named by the classes of dest and src. -/
inductive Mode2 where
  | rr
  | rm
  | mr
  | ri
  | mm
  | mi
  deriving DecidableEq, Repr

/-- The single-operand addressing modes (R67), named by the operand's class. -/
inductive Mode1 where
  | reg
  | mem
  | imm
  deriving DecidableEq, Repr

/-- The instructions. NOP and HLT carry the type byte they ignore (R76). -/
inductive Instr where
  /-- `NOP` with its ignored type byte (R123). -/
  | nop (ty : Byte)
  /-- `HLT` with its ignored type byte (R124). -/
  | hlt (ty : Byte)
  /-- `INT r` (R125). -/
  | intR (c : RegCode)
  /-- `INT [a]` (R125). -/
  | intM (a : Addr)
  /-- `INT #k` (R125). -/
  | intI (k : Imm)
  /-- `MOV r1, r2`, type 0x00 (R128). -/
  | movRR (d s : RegCode)
  /-- `MOV r, [a]`, type 0x01 (R128). -/
  | movRM (d : RegCode) (a : Addr)
  /-- `MOV [a], r`, type 0x02 (R128). -/
  | movMR (a : Addr) (s : RegCode)
  /-- `MOV r, #k`, type 0x03 (R128). -/
  | movRI (d : RegCode) (k : Imm)
  /-- `MOV [a], [b]`, type 0x05 (R128). -/
  | movMM (a b : Addr)
  /-- `MOV [a], #k`, type 0x06 (R128). -/
  | movMI (a : Addr) (k : Imm)
  /-- `MOV MOP, #k`, type 0x04 (R130). -/
  | movMop (k : Imm)
  /-- `ADD r1, r2`, type 0x00 (R133). -/
  | addRR (d s : RegCode)
  /-- `ADD r, [a]`, type 0x01 (R133). -/
  | addRM (d : RegCode) (a : Addr)
  /-- `ADD [a], r`, type 0x02 (R133). -/
  | addMR (a : Addr) (s : RegCode)
  /-- `ADD r, #k`, type 0x03 (R133). -/
  | addRI (d : RegCode) (k : Imm)
  /-- `ADD [a], [b]`, type 0x05 (R133). -/
  | addMM (a b : Addr)
  /-- `ADD [a], #k`, type 0x06 (R133). -/
  | addMI (a : Addr) (k : Imm)
  /-- `SUB r1, r2`, type 0x00 (R134). -/
  | subRR (d s : RegCode)
  /-- `SUB r, [a]`, type 0x01 (R134). -/
  | subRM (d : RegCode) (a : Addr)
  /-- `SUB [a], r`, type 0x02 (R134). -/
  | subMR (a : Addr) (s : RegCode)
  /-- `SUB r, #k`, type 0x03 (R134). -/
  | subRI (d : RegCode) (k : Imm)
  /-- `SUB [a], [b]`, type 0x05 (R134). -/
  | subMM (a b : Addr)
  /-- `SUB [a], #k`, type 0x06 (R134). -/
  | subMI (a : Addr) (k : Imm)
  /-- `AND r1, r2`, type 0x00 (R135). -/
  | andRR (d s : RegCode)
  /-- `AND r, [a]`, type 0x01 (R135). -/
  | andRM (d : RegCode) (a : Addr)
  /-- `AND [a], r`, type 0x02 (R135). -/
  | andMR (a : Addr) (s : RegCode)
  /-- `AND r, #k`, type 0x03 (R135). -/
  | andRI (d : RegCode) (k : Imm)
  /-- `AND [a], [b]`, type 0x05 (R135). -/
  | andMM (a b : Addr)
  /-- `AND [a], #k`, type 0x06 (R135). -/
  | andMI (a : Addr) (k : Imm)
  /-- `OR r1, r2`, type 0x00 (R136). -/
  | orRR (d s : RegCode)
  /-- `OR r, [a]`, type 0x01 (R136). -/
  | orRM (d : RegCode) (a : Addr)
  /-- `OR [a], r`, type 0x02 (R136). -/
  | orMR (a : Addr) (s : RegCode)
  /-- `OR r, #k`, type 0x03 (R136). -/
  | orRI (d : RegCode) (k : Imm)
  /-- `OR [a], [b]`, type 0x05 (R136). -/
  | orMM (a b : Addr)
  /-- `OR [a], #k`, type 0x06 (R136). -/
  | orMI (a : Addr) (k : Imm)
  /-- `XOR r1, r2`, type 0x00 (R137). -/
  | xorRR (d s : RegCode)
  /-- `XOR r, [a]`, type 0x01 (R137). -/
  | xorRM (d : RegCode) (a : Addr)
  /-- `XOR [a], r`, type 0x02 (R137). -/
  | xorMR (a : Addr) (s : RegCode)
  /-- `XOR r, #k`, type 0x03 (R137). -/
  | xorRI (d : RegCode) (k : Imm)
  /-- `XOR [a], [b]`, type 0x05 (R137). -/
  | xorMM (a b : Addr)
  /-- `XOR [a], #k`, type 0x06 (R137). -/
  | xorMI (a : Addr) (k : Imm)
  /-- `NOT r` (R138). -/
  | notR (c : RegCode)
  /-- `NOT [a]` (R138). -/
  | notM (a : Addr)
  /-- `JMP r` (R144). -/
  | jmpR (c : RegCode)
  /-- `JMP [a]`: the target is the cell's content (R144, R143). -/
  | jmpM (a : Addr)
  /-- `JMP #k` (R144). -/
  | jmpI (k : Imm)
  /-- `JZ r` (R145). -/
  | jzR (c : RegCode)
  /-- `JZ [a]`: the target is the cell's content (R145, R143). -/
  | jzM (a : Addr)
  /-- `JZ #k` (R145). -/
  | jzI (k : Imm)
  /-- `JC r` (R146). -/
  | jcR (c : RegCode)
  /-- `JC [a]`: the target is the cell's content (R146, R143). -/
  | jcM (a : Addr)
  /-- `JC #k` (R146). -/
  | jcI (k : Imm)
  /-- `SHL r1, r2`, type 0x00 (R139). -/
  | shlRR (d s : RegCode)
  /-- `SHL r, [a]`, type 0x01 (R139). -/
  | shlRM (d : RegCode) (a : Addr)
  /-- `SHL [a], r`, type 0x02 (R139). -/
  | shlMR (a : Addr) (s : RegCode)
  /-- `SHL r, #k`, type 0x03 (R139). -/
  | shlRI (d : RegCode) (k : Imm)
  /-- `SHL [a], [b]`, type 0x05 (R139). -/
  | shlMM (a b : Addr)
  /-- `SHL [a], #k`, type 0x06 (R139). -/
  | shlMI (a : Addr) (k : Imm)
  /-- `SHR r1, r2`, type 0x00 (R140). -/
  | shrRR (d s : RegCode)
  /-- `SHR r, [a]`, type 0x01 (R140). -/
  | shrRM (d : RegCode) (a : Addr)
  /-- `SHR [a], r`, type 0x02 (R140). -/
  | shrMR (a : Addr) (s : RegCode)
  /-- `SHR r, #k`, type 0x03 (R140). -/
  | shrRI (d : RegCode) (k : Imm)
  /-- `SHR [a], [b]`, type 0x05 (R140). -/
  | shrMM (a b : Addr)
  /-- `SHR [a], #k`, type 0x06 (R140). -/
  | shrMI (a : Addr) (k : Imm)
  /-- `CMP r1, r2`, type 0x00 (R141). -/
  | cmpRR (d s : RegCode)
  /-- `CMP r, [a]`, type 0x01 (R141). -/
  | cmpRM (d : RegCode) (a : Addr)
  /-- `CMP [a], r`, type 0x02 (R141). -/
  | cmpMR (a : Addr) (s : RegCode)
  /-- `CMP r, #k`, type 0x03 (R141). -/
  | cmpRI (d : RegCode) (k : Imm)
  /-- `CMP [a], [b]`, type 0x05 (R141). -/
  | cmpMM (a b : Addr)
  /-- `CMP [a], #k`, type 0x06 (R141). -/
  | cmpMI (a : Addr) (k : Imm)
  deriving DecidableEq, Repr

end Sys2Proof
end

