-- ==== Sys2Proof/WellFormed.lean ====
section
/-! DEFINITION. Well-formed instructions: every register operand is one of the 18 register codes (30_encoding.md rule R68).
Memory and immediate operands, and the type byte of NOP and HLT, may be any byte (R68, R69, R76). -/

namespace Sys2Proof

/-- `valid(c)` of 00_scope.md rule R13: the code is in 0x01..0x12. -/
def regCodeOk (c : RegCode) : Bool := decide (1 ≤ c.toNat) && decide (c.toNat ≤ 18)

/-- Every register operand is a register code (R28, R68). -/
def WellFormed : Instr → Bool
  | .nop _ => true
  | .hlt _ => true
  | .intR c => regCodeOk c
  | .intM _ => true
  | .intI _ => true
  | .movRR d s => regCodeOk d && regCodeOk s
  | .movRM d _ => regCodeOk d
  | .movMR _ s => regCodeOk s
  | .movRI d _ => regCodeOk d
  | .movMM _ _ => true
  | .movMI _ _ => true
  | .movMop _ => true
  | .addRR d s => regCodeOk d && regCodeOk s
  | .addRM d _ => regCodeOk d
  | .addMR _ s => regCodeOk s
  | .addRI d _ => regCodeOk d
  | .addMM _ _ => true
  | .addMI _ _ => true
  | .subRR d s => regCodeOk d && regCodeOk s
  | .subRM d _ => regCodeOk d
  | .subMR _ s => regCodeOk s
  | .subRI d _ => regCodeOk d
  | .subMM _ _ => true
  | .subMI _ _ => true
  | .andRR d s => regCodeOk d && regCodeOk s
  | .andRM d _ => regCodeOk d
  | .andMR _ s => regCodeOk s
  | .andRI d _ => regCodeOk d
  | .andMM _ _ => true
  | .andMI _ _ => true
  | .orRR d s => regCodeOk d && regCodeOk s
  | .orRM d _ => regCodeOk d
  | .orMR _ s => regCodeOk s
  | .orRI d _ => regCodeOk d
  | .orMM _ _ => true
  | .orMI _ _ => true
  | .xorRR d s => regCodeOk d && regCodeOk s
  | .xorRM d _ => regCodeOk d
  | .xorMR _ s => regCodeOk s
  | .xorRI d _ => regCodeOk d
  | .xorMM _ _ => true
  | .xorMI _ _ => true
  | .notR c => regCodeOk c
  | .notM _ => true
  | .jmpR c => regCodeOk c
  | .jmpM _ => true
  | .jmpI _ => true
  | .jzR c => regCodeOk c
  | .jzM _ => true
  | .jzI _ => true
  | .jcR c => regCodeOk c
  | .jcM _ => true
  | .jcI _ => true
  | .shlRR d s => regCodeOk d && regCodeOk s
  | .shlRM d _ => regCodeOk d
  | .shlMR _ s => regCodeOk s
  | .shlRI d _ => regCodeOk d
  | .shlMM _ _ => true
  | .shlMI _ _ => true
  | .shrRR d s => regCodeOk d && regCodeOk s
  | .shrRM d _ => regCodeOk d
  | .shrMR _ s => regCodeOk s
  | .shrRI d _ => regCodeOk d
  | .shrMM _ _ => true
  | .shrMI _ _ => true
  | .cmpRR d s => regCodeOk d && regCodeOk s
  | .cmpRM d _ => regCodeOk d
  | .cmpMR _ s => regCodeOk s
  | .cmpRI d _ => regCodeOk d
  | .cmpMM _ _ => true
  | .cmpMI _ _ => true

end Sys2Proof
end

