-- ==== Sys2Proof/Decode.lean ====
section
/-! DEFINITION. The decoder and the encoder (30_encoding.md rules R63 to R76; 40_execution_cycle.md rules R97, R98, R111).

Decoding depends on the opcode byte and the type byte only (R74). It is total: every pair of header bytes gives one
constructor of `Header`, and an undefined opcode or an unaccepted type byte is rejected by name. -/

namespace Sys2Proof

/-- The two-operand mode a type byte selects (R65). 0x04 and 0x07..0xFF select none. -/
def Mode2.ofType (ty : Byte) : Option Mode2 :=
  match ty.toNat with
  | 0x00 => some .rr
  | 0x01 => some .rm
  | 0x02 => some .mr
  | 0x03 => some .ri
  | 0x05 => some .mm
  | 0x06 => some .mi
  | _ => none

/-- The class of a two-operand mode's dest byte (R65). No mode has an immediate destination. -/
def Mode2.dest : Mode2 → OpClass
  | .rr => .R
  | .rm => .R
  | .mr => .M
  | .ri => .R
  | .mm => .M
  | .mi => .M

/-- The class of a two-operand mode's src byte (R65). -/
def Mode2.src : Mode2 → OpClass
  | .rr => .R
  | .rm => .M
  | .mr => .R
  | .ri => .I
  | .mm => .M
  | .mi => .I

/-- The single-operand mode a type byte selects (R67). -/
def Mode1.ofType (ty : Byte) : Option Mode1 :=
  match ty.toNat with
  | 0x00 => some .reg
  | 0x01 => some .mem
  | 0x03 => some .imm
  | _ => none

/-- The class of a single-operand mode's operand byte (R67). -/
def Mode1.cls : Mode1 → OpClass
  | .reg => .R
  | .mem => .M
  | .imm => .I

/-- The MOV of a two-operand mode (R128, R65). -/
def movOf (m : Mode2) (d s : Byte) : Instr :=
  match m with
  | .rr => .movRR d s
  | .rm => .movRM d s
  | .mr => .movMR d s
  | .ri => .movRI d s
  | .mm => .movMM d s
  | .mi => .movMI d s

/-- The ADD of a two-operand mode (R133, R65). -/
def addOf (m : Mode2) (d s : Byte) : Instr :=
  match m with
  | .rr => .addRR d s
  | .rm => .addRM d s
  | .mr => .addMR d s
  | .ri => .addRI d s
  | .mm => .addMM d s
  | .mi => .addMI d s

/-- The SUB of a two-operand mode (R134, R65). -/
def subOf (m : Mode2) (d s : Byte) : Instr :=
  match m with
  | .rr => .subRR d s
  | .rm => .subRM d s
  | .mr => .subMR d s
  | .ri => .subRI d s
  | .mm => .subMM d s
  | .mi => .subMI d s

/-- The AND of a two-operand mode (R135, R65). -/
def andOf (m : Mode2) (d s : Byte) : Instr :=
  match m with
  | .rr => .andRR d s
  | .rm => .andRM d s
  | .mr => .andMR d s
  | .ri => .andRI d s
  | .mm => .andMM d s
  | .mi => .andMI d s

/-- The OR of a two-operand mode (R136, R65). -/
def orOf (m : Mode2) (d s : Byte) : Instr :=
  match m with
  | .rr => .orRR d s
  | .rm => .orRM d s
  | .mr => .orMR d s
  | .ri => .orRI d s
  | .mm => .orMM d s
  | .mi => .orMI d s

/-- The XOR of a two-operand mode (R137, R65). -/
def xorOf (m : Mode2) (d s : Byte) : Instr :=
  match m with
  | .rr => .xorRR d s
  | .rm => .xorRM d s
  | .mr => .xorMR d s
  | .ri => .xorRI d s
  | .mm => .xorMM d s
  | .mi => .xorMI d s

/-- The SHL of a two-operand mode (R139, R65). -/
def shlOf (m : Mode2) (d s : Byte) : Instr :=
  match m with
  | .rr => .shlRR d s
  | .rm => .shlRM d s
  | .mr => .shlMR d s
  | .ri => .shlRI d s
  | .mm => .shlMM d s
  | .mi => .shlMI d s

/-- The SHR of a two-operand mode (R140, R65). -/
def shrOf (m : Mode2) (d s : Byte) : Instr :=
  match m with
  | .rr => .shrRR d s
  | .rm => .shrRM d s
  | .mr => .shrMR d s
  | .ri => .shrRI d s
  | .mm => .shrMM d s
  | .mi => .shrMI d s

/-- The CMP of a two-operand mode (R141, R65). -/
def cmpOf (m : Mode2) (d s : Byte) : Instr :=
  match m with
  | .rr => .cmpRR d s
  | .rm => .cmpRM d s
  | .mr => .cmpMR d s
  | .ri => .cmpRI d s
  | .mm => .cmpMM d s
  | .mi => .cmpMI d s

/-- The INT of a single-operand mode (R125, R67). -/
def intOf (m : Mode1) (b : Byte) : Instr :=
  match m with
  | .reg => .intR b
  | .mem => .intM b
  | .imm => .intI b

/-- The JMP of a single-operand mode (R144, R67). -/
def jmpOf (m : Mode1) (b : Byte) : Instr :=
  match m with
  | .reg => .jmpR b
  | .mem => .jmpM b
  | .imm => .jmpI b

/-- The JZ of a single-operand mode (R145, R67). -/
def jzOf (m : Mode1) (b : Byte) : Instr :=
  match m with
  | .reg => .jzR b
  | .mem => .jzM b
  | .imm => .jzI b

/-- The JC of a single-operand mode (R146, R67). -/
def jcOf (m : Mode1) (b : Byte) : Instr :=
  match m with
  | .reg => .jcR b
  | .mem => .jcM b
  | .imm => .jcI b

/-- What the two header bytes decide (R111): an instruction with no operand byte, one that takes one, one that takes
two, or a rejection by name. -/
inductive Header where
  | zero (i : Instr)
  | one (mk : Byte → Instr)
  | two (mk : Byte → Byte → Instr)
  | badOpcode (op : Byte)
  | badMode (op ty : Byte)

/-- A two-operand opcode accepts the six modes of R65. -/
def headerTwo (op ty : Byte) (mk : Mode2 → Byte → Byte → Instr) : Header :=
  match Mode2.ofType ty with
  | some m => .two (mk m)
  | none => .badMode op ty

/-- INT, JMP, JZ and JC accept the three modes of R67. -/
def headerOne (op ty : Byte) (mk : Mode1 → Byte → Instr) : Header :=
  match Mode1.ofType ty with
  | some m => .one (mk m)
  | none => .badMode op ty

/-- NOT accepts the register and memory modes only (R67, R138; 90_conflicts.md C4). -/
def headerNot (op ty : Byte) : Header :=
  match Mode1.ofType ty with
  | some .reg => .one .notR
  | some .mem => .one .notM
  | some .imm => .badMode op ty
  | none => .badMode op ty

/-- MOV accepts the six modes and, alone, type 0x04: the FM form `MOV MOP, #k` (R66). -/
def headerMov (op ty : Byte) : Header :=
  if ty.toNat = 0x04 then .one .movMop else headerTwo op ty movOf

/-- Dispatch by opcode (R70, R97), then the mode check (R98). -/
def decodeHeader (op ty : Byte) : Header :=
  match op.toNat with
  | 0x00 => .zero (.nop ty)
  | 0x01 => .zero (.hlt ty)
  | 0x02 => headerOne op ty intOf
  | 0x10 => headerMov op ty
  | 0x11 => headerTwo op ty addOf
  | 0x12 => headerTwo op ty subOf
  | 0x13 => headerTwo op ty andOf
  | 0x14 => headerTwo op ty orOf
  | 0x15 => headerTwo op ty xorOf
  | 0x16 => headerNot op ty
  | 0x17 => headerOne op ty jmpOf
  | 0x18 => headerOne op ty jzOf
  | 0x19 => headerOne op ty jcOf
  | 0x1A => headerTwo op ty shlOf
  | 0x1B => headerTwo op ty shrOf
  | 0x1C => headerTwo op ty cmpOf
  | _ => .badOpcode op

/-- Why a byte sequence decodes to no instruction. -/
inductive DecodeError where
  /-- The opcode byte is not in the table of R70 (R72). -/
  | unknownOpcode (op : Byte)
  /-- The opcode does not accept the type byte (R73). -/
  | unknownAddressingMode (op ty : Byte)
  /-- The bytes end before the instruction does. -/
  | truncated
  deriving DecidableEq, Repr

/-- Take the operand bytes a header calls for from the bytes after it, dest first (R64, R75). -/
def decodeOperands : Header → List Byte → Except DecodeError (Instr × List Byte)
  | .zero i, rest => .ok (i, rest)
  | .one mk, b :: rest => .ok (mk b, rest)
  | .one _, [] => .error .truncated
  | .two mk, d :: s :: rest => .ok (mk d s, rest)
  | .two _, [_] => .error .truncated
  | .two _, [] => .error .truncated
  | .badOpcode op, _ => .error (.unknownOpcode op)
  | .badMode op ty, _ => .error (.unknownAddressingMode op ty)

/-- Decode the instruction at the head of a byte sequence and return the bytes after it (R63, R75). -/
def decode : List Byte → Except DecodeError (Instr × List Byte)
  | op :: ty :: rest => decodeOperands (decodeHeader op ty) rest
  | [_] => .error .truncated
  | [] => .error .truncated

/-- `len(op, ty)` of R71, written from that rule and not from the decoder. -/
def instrLength (op ty : Byte) : Nat :=
  let o := op.toNat
  let t := ty.toNat
  if o = 0x00 ∨ o = 0x01 then 2
  else if o = 0x10 ∧ t = 0x04 then 3
  else if o ∈ [0x10, 0x11, 0x12, 0x13, 0x14, 0x15, 0x1A, 0x1B, 0x1C] ∧ t ∈ [0, 1, 2, 3, 5, 6] then 4
  else if o = 0x16 ∧ t ∈ [0x00, 0x01] then 3
  else if o ∈ [0x02, 0x17, 0x18, 0x19] ∧ t ∈ [0x00, 0x01, 0x03] then 3
  else 2

/-- The bytes of an instruction, at increasing addresses (R64, R65, R66, R67, R70). -/
def encode : Instr → List Byte
  | .nop ty => [0x00, ty]
  | .hlt ty => [0x01, ty]
  | .intR c => [0x02, 0x00, c]
  | .intM a => [0x02, 0x01, a]
  | .intI k => [0x02, 0x03, k]
  | .movRR d s => [0x10, 0x00, d, s]
  | .movRM d s => [0x10, 0x01, d, s]
  | .movMR d s => [0x10, 0x02, d, s]
  | .movRI d s => [0x10, 0x03, d, s]
  | .movMM d s => [0x10, 0x05, d, s]
  | .movMI d s => [0x10, 0x06, d, s]
  | .movMop k => [0x10, 0x04, k]
  | .addRR d s => [0x11, 0x00, d, s]
  | .addRM d s => [0x11, 0x01, d, s]
  | .addMR d s => [0x11, 0x02, d, s]
  | .addRI d s => [0x11, 0x03, d, s]
  | .addMM d s => [0x11, 0x05, d, s]
  | .addMI d s => [0x11, 0x06, d, s]
  | .subRR d s => [0x12, 0x00, d, s]
  | .subRM d s => [0x12, 0x01, d, s]
  | .subMR d s => [0x12, 0x02, d, s]
  | .subRI d s => [0x12, 0x03, d, s]
  | .subMM d s => [0x12, 0x05, d, s]
  | .subMI d s => [0x12, 0x06, d, s]
  | .andRR d s => [0x13, 0x00, d, s]
  | .andRM d s => [0x13, 0x01, d, s]
  | .andMR d s => [0x13, 0x02, d, s]
  | .andRI d s => [0x13, 0x03, d, s]
  | .andMM d s => [0x13, 0x05, d, s]
  | .andMI d s => [0x13, 0x06, d, s]
  | .orRR d s => [0x14, 0x00, d, s]
  | .orRM d s => [0x14, 0x01, d, s]
  | .orMR d s => [0x14, 0x02, d, s]
  | .orRI d s => [0x14, 0x03, d, s]
  | .orMM d s => [0x14, 0x05, d, s]
  | .orMI d s => [0x14, 0x06, d, s]
  | .xorRR d s => [0x15, 0x00, d, s]
  | .xorRM d s => [0x15, 0x01, d, s]
  | .xorMR d s => [0x15, 0x02, d, s]
  | .xorRI d s => [0x15, 0x03, d, s]
  | .xorMM d s => [0x15, 0x05, d, s]
  | .xorMI d s => [0x15, 0x06, d, s]
  | .notR c => [0x16, 0x00, c]
  | .notM a => [0x16, 0x01, a]
  | .jmpR c => [0x17, 0x00, c]
  | .jmpM a => [0x17, 0x01, a]
  | .jmpI k => [0x17, 0x03, k]
  | .jzR c => [0x18, 0x00, c]
  | .jzM a => [0x18, 0x01, a]
  | .jzI k => [0x18, 0x03, k]
  | .jcR c => [0x19, 0x00, c]
  | .jcM a => [0x19, 0x01, a]
  | .jcI k => [0x19, 0x03, k]
  | .shlRR d s => [0x1A, 0x00, d, s]
  | .shlRM d s => [0x1A, 0x01, d, s]
  | .shlMR d s => [0x1A, 0x02, d, s]
  | .shlRI d s => [0x1A, 0x03, d, s]
  | .shlMM d s => [0x1A, 0x05, d, s]
  | .shlMI d s => [0x1A, 0x06, d, s]
  | .shrRR d s => [0x1B, 0x00, d, s]
  | .shrRM d s => [0x1B, 0x01, d, s]
  | .shrMR d s => [0x1B, 0x02, d, s]
  | .shrRI d s => [0x1B, 0x03, d, s]
  | .shrMM d s => [0x1B, 0x05, d, s]
  | .shrMI d s => [0x1B, 0x06, d, s]
  | .cmpRR d s => [0x1C, 0x00, d, s]
  | .cmpRM d s => [0x1C, 0x01, d, s]
  | .cmpMR d s => [0x1C, 0x02, d, s]
  | .cmpRI d s => [0x1C, 0x03, d, s]
  | .cmpMM d s => [0x1C, 0x05, d, s]
  | .cmpMI d s => [0x1C, 0x06, d, s]

/-- The register operands of an instruction, in the order they are checked: dest first, then src (R100). -/
def registerOperands : Instr → List RegCode
  | .nop _ => []
  | .hlt _ => []
  | .intR c => [c]
  | .intM _ => []
  | .intI _ => []
  | .movRR d s => [d, s]
  | .movRM d _ => [d]
  | .movMR _ s => [s]
  | .movRI d _ => [d]
  | .movMM _ _ => []
  | .movMI _ _ => []
  | .movMop _ => []
  | .addRR d s => [d, s]
  | .addRM d _ => [d]
  | .addMR _ s => [s]
  | .addRI d _ => [d]
  | .addMM _ _ => []
  | .addMI _ _ => []
  | .subRR d s => [d, s]
  | .subRM d _ => [d]
  | .subMR _ s => [s]
  | .subRI d _ => [d]
  | .subMM _ _ => []
  | .subMI _ _ => []
  | .andRR d s => [d, s]
  | .andRM d _ => [d]
  | .andMR _ s => [s]
  | .andRI d _ => [d]
  | .andMM _ _ => []
  | .andMI _ _ => []
  | .orRR d s => [d, s]
  | .orRM d _ => [d]
  | .orMR _ s => [s]
  | .orRI d _ => [d]
  | .orMM _ _ => []
  | .orMI _ _ => []
  | .xorRR d s => [d, s]
  | .xorRM d _ => [d]
  | .xorMR _ s => [s]
  | .xorRI d _ => [d]
  | .xorMM _ _ => []
  | .xorMI _ _ => []
  | .notR c => [c]
  | .notM _ => []
  | .jmpR c => [c]
  | .jmpM _ => []
  | .jmpI _ => []
  | .jzR c => [c]
  | .jzM _ => []
  | .jzI _ => []
  | .jcR c => [c]
  | .jcM _ => []
  | .jcI _ => []
  | .shlRR d s => [d, s]
  | .shlRM d _ => [d]
  | .shlMR _ s => [s]
  | .shlRI d _ => [d]
  | .shlMM _ _ => []
  | .shlMI _ _ => []
  | .shrRR d s => [d, s]
  | .shrRM d _ => [d]
  | .shrMR _ s => [s]
  | .shrRI d _ => [d]
  | .shrMM _ _ => []
  | .shrMI _ _ => []
  | .cmpRR d s => [d, s]
  | .cmpRM d _ => [d]
  | .cmpMR _ s => [s]
  | .cmpRI d _ => [d]
  | .cmpMM _ _ => []
  | .cmpMI _ _ => []

/-- The four bytes a table word stands for (notes/assumptions/7.md). The table numbers the 16-bit header
`H = (byte0 << 8) | byte1` (R64): bits 15..8 are byte 0 and bits 7..0 are byte 1. Bits 23..16 and 31..24 are the
operand bytes 2 and 3, and every bit at `nbits` or above is 0. -/
def tableBytes (nbits w : Nat) : List Byte :=
  let v := w % 2 ^ nbits
  [BitVec.ofNat 8 (v / 2 ^ 8), BitVec.ofNat 8 v, BitVec.ofNat 8 (v / 2 ^ 16), BitVec.ofNat 8 (v / 2 ^ 24)]

/-- The instruction the decoder reads from a table word (none where it rejects). -/
def decodeTableWord (nbits w : Nat) : Option Instr :=
  match decode (tableBytes nbits w) with
  | .ok (i, _) => some i
  | .error _ => none

end Sys2Proof
end

