-- ==== Sys2Proof/Config.lean ====
section
/-! DEFINITION. The two points the spec leaves open as named parameters (00_scope.md rule R9; 92_eei_decisions.md D5 and D11).

`State.cfg` carries a value of `Config`, so a statement over every state holds for both values of each parameter.
No instruction writes it. `Config.spec` is the value the spec takes for each, and `State.reset` holds it. -/

namespace Sys2Proof

/-- `P_BADREG` (R9, R100, D5): what an instruction does when it names an invalid register code. -/
inductive BadReg where
  /-- The default: the instruction is abandoned (R100). -/
  | abandon
  /-- The alternative: no check is made, an invalid code reads 0 and a write to it changes nothing (R100). -/
  | readZero
  deriving DecidableEq, Repr

/-- `P_NOT_RESULT` (R9, R138, D11): the integer NOT hands to the Flag Unit. -/
inductive NotResult where
  /-- The default: `~a = -a - 1`. -/
  | complementI32
  /-- The alternative: `(~a) & 0xFF = 255 - a`. -/
  | zext8
  deriving DecidableEq, Repr

/-- The block's open parameters (R9). -/
structure Config where
  badReg    : BadReg
  notResult : NotResult
  deriving DecidableEq, Repr

/-- The value the spec takes for each parameter (R9: `ABANDON`, `COMPLEMENT_I32`). -/
def Config.spec : Config := { badReg := .abandon, notResult := .complementI32 }

end Sys2Proof
end

