-- ==== Sys2Proof/Machine/State.lean ====
section
/-! DEFINITION. The machine's state as plain data (10_state.md rules R20, R34, R43, R46), the events of its output ports
(60_exceptions.md rules R148, R151, R159, R160) and its reset value. -/

namespace Sys2Proof.Machine

/-- The six general registers (R21). There is no F register. -/
inductive Reg where
  | A
  | B
  | C
  | D
  | E
  | G
  deriving DecidableEq, Repr

/-- A register view (R22): the whole register, or one of its two banks. -/
inductive RegView where
  | whole (r : Reg)
  | high (r : Reg)
  | low (r : Reg)
  deriving DecidableEq, Repr

/-- One bank of each register (R20: `hi[0..5]` or `lo[0..5]`, in the order A, B, C, D, E, G of R21). -/
structure Banks where
  A : Nibble
  B : Nibble
  C : Nibble
  D : Nibble
  E : Nibble
  G : Nibble
  deriving DecidableEq, Repr

/-- The flag register (R34): carry, zero, sign, overflow, parity, the inert interrupt flag and the width mode. -/
structure Flags where
  CF  : Bool
  ZF  : Bool
  SF  : Bool
  OF  : Bool
  PF  : Bool
  IF  : Bool
  MOP : Bool
  deriving DecidableEq, Repr

/-- The Instruction Register (R33): the last fetched opcode byte and type byte. -/
structure InstrReg where
  op   : Byte
  type : Byte
  deriving DecidableEq, Repr

/-- Memory (R47): address and byte pairs in the canonical form of `Memory.wf`. An address that is not listed holds
`Memory.unlisted`. -/
abbrev Memory := List Host.Cell

/-- The sub-cause of an uncaught execution fault (R148): the only one is an instruction byte fetched at `pc >= 256`. -/
inductive ExecutionFault where
  | fetchOutOfBounds (pc : Nat)
  deriving DecidableEq, Repr

/-- The runtime errors with the information each records (R148). Only `Ops.raise` emits one. -/
inductive RuntimeError where
  /-- 0x01, recoverable, unreachable: an M operand at address 256 or more (R102). -/
  | outOfBoundsMemory (address : Nat)
  /-- 0x02, recoverable: an R operand whose code is not in 0x01..0x12 (R100). -/
  | unknownRegister (code : RegCode)
  /-- 0x03, recoverable: an opcode byte that is not in the table (R72). -/
  | unknownOpcode (op : Byte)
  /-- 0x04, recoverable: a type byte the opcode does not accept (R73). -/
  | unknownAddressingMode (op ty : Byte)
  /-- 0x05, recoverable: INT with a number other than 0 or 1 (R126). -/
  | unknownInterrupt (number : Byte)
  /-- 0x10, fatal, unreachable: a taken jump to 256 or more (R143). -/
  | invalidJumpTarget (target : Nat)
  /-- 0x11, fatal: an instruction byte fetched at 256 (R95). -/
  | uncaughtExecutionFault (cause : ExecutionFault)
  deriving DecidableEq, Repr

/-- The halt reasons that are not errors (R151). -/
inductive HaltReason where
  | halt
  | endOfMemory
  | stop
  deriving DecidableEq, Repr

/-- What `on_state_changed(registers, flags, memory, pc)` carries (R159): the twelve banks, the seven flags, memory and `pc`. -/
structure Snapshot where
  hi    : Banks
  lo    : Banks
  flags : Flags
  mem   : Memory
  pc    : Pc
  deriving DecidableEq, Repr

/-- The events of the output ports (R152, R159, R160). -/
inductive Event where
  /-- `on_interrupt(number, ax_value)` (R160). -/
  | interrupt (number : Byte) (ax : Byte)
  /-- `error(code, info)` (R152). -/
  | error (e : RuntimeError)
  /-- The halt event with its reason (R151). -/
  | halted (reason : HaltReason)
  /-- `on_state_changed` with the post-step state (R109, R159). -/
  | stateChanged (snapshot : Snapshot)
  deriving DecidableEq, Repr

/-- The state. The fields `hi` to `mem` are the record of R20 and R46. `cfg` and `log` are the model's own: the named
parameters of R9, and the history of port events that R152 asks a model to keep (newest first). -/
structure State where
  hi      : Banks
  lo      : Banks
  flags   : Flags
  pc      : Pc
  ir      : InstrReg
  running : Bool
  mem     : Memory
  cfg     : Config
  log     : List Event
  deriving DecidableEq, Repr

/-- The machine has no fault: every runtime condition is recovered or halts the engine with a state the spec gives
(R147, R149, R150), and so it is a next state. Nothing raises a fault, so there is nothing unsafe or safe to say. -/
inductive Fault where
  deriving DecidableEq, Repr

/-- Why a step has no meaning. -/
inductive Refusal where
  /-- Raised by an arm of `exec` for an instruction not modelled yet (safe: the model stops). No arm raises it. -/
  | notModelled (mnemonic : String)
  deriving DecidableEq, Repr

/-- The outcome of a step. -/
abbrev Result := Host.Outcome State Fault Refusal

/-- Every bank zero (R43). -/
def Banks.zero : Banks := { A := 0, B := 0, C := 0, D := 0, E := 0, G := 0 }

/-- Every flag zero but MOP, which is 1 (R43; 90_conflicts.md C3). -/
def Flags.reset : Flags :=
  { CF := false, ZF := false, SF := false, OF := false, PF := false, IF := false, MOP := true }

/-- The state after reset and at construction (R43, R167): everything 0 and Halted, MOP 1, memory all 0. The parameters
hold the values the spec takes (R9), and no event has been emitted. -/
def State.reset : State :=
  { hi := Banks.zero, lo := Banks.zero, flags := Flags.reset, pc := 0, ir := { op := 0, type := 0 },
    running := false, mem := [], cfg := Config.spec, log := [] }

end Sys2Proof.Machine
end

