-- ==== Sys2Proof/Machine/Ops.lean ====
section
/-! DEFINITION. The named operations over registers, memory, events and the instruction stream: the register file's ports
(10_state.md rules R22 to R26), memory access (20_memory.md rules R47 to R50), raising a runtime error (60_exceptions.md
rules R147 to R150), halting (R151), and the fetch (40_execution_cycle.md rules R94 to R99). -/

namespace Sys2Proof.Machine

/-! ### Memory -/

/-- What an unlisted address reads as: the reset content of every cell (R43). -/
def Memory.unlisted : Byte := 0

/-- The byte at an address. -/
def Memory.read : Memory → Nat → Byte
  | [], _ => Memory.unlisted
  | (k, x) :: rest, a => if a = k then x else Memory.read rest a

/-- Memory with one byte replaced, in canonical form: a byte equal to `unlisted` is not listed. -/
def Memory.write : Memory → Nat → Byte → Memory
  | [], a, v => if v = Memory.unlisted then [] else [(a, v)]
  | (k, x) :: rest, a, v =>
    if a < k then
      if v = Memory.unlisted then (k, x) :: rest else (a, v) :: (k, x) :: rest
    else if a = k then
      if v = Memory.unlisted then rest else (a, v) :: rest
    else (k, x) :: Memory.write rest a v

/-- The canonical form from address `low` up: addresses strictly rise and lie in 0..255, and no listed byte is the one
an unlisted address reads as. -/
def Memory.wfFrom : Nat → Memory → Bool
  | _, [] => true
  | low, (k, x) :: rest =>
    decide (low ≤ k) && decide (k < memorySize) && decide (x ≠ Memory.unlisted) && Memory.wfFrom (k + 1) rest

/-- The canonical form of memory. -/
def Memory.wf (m : Memory) : Bool := Memory.wfFrom 0 m

/-- `MemRead(a, 1)` (R14, R49). -/
def State.memRead (s : State) (a : Addr) : Byte := s.mem.read a.toNat

/-- `MemWrite(a, 1, v)`: the cell takes `v[7:0]` (R14, R49). -/
def State.memWrite (s : State) (a : Addr) (v : Int) : State :=
  { s with mem := s.mem.write a.toNat (BitVec.ofInt 8 v) }

/-! ### Registers -/

/-- The bank of one register. -/
def Banks.get (b : Banks) : Reg → Nibble
  | .A => b.A
  | .B => b.B
  | .C => b.C
  | .D => b.D
  | .E => b.E
  | .G => b.G

/-- The banks with that of one register replaced. -/
def Banks.set (b : Banks) (r : Reg) (v : Nibble) : Banks :=
  match r with
  | .A => { b with A := v }
  | .B => { b with B := v }
  | .C => { b with C := v }
  | .D => { b with D := v }
  | .E => { b with E := v }
  | .G => { b with G := v }

/-- The register codes (R22). -/
def RegView.ofCode (c : RegCode) : Option RegView :=
  match c.toNat with
  | 0x01 => some (.whole .A)
  | 0x02 => some (.whole .B)
  | 0x03 => some (.whole .C)
  | 0x04 => some (.whole .D)
  | 0x05 => some (.whole .E)
  | 0x06 => some (.whole .G)
  | 0x07 => some (.high .A)
  | 0x08 => some (.low .A)
  | 0x09 => some (.high .B)
  | 0x0A => some (.low .B)
  | 0x0B => some (.high .C)
  | 0x0C => some (.low .C)
  | 0x0D => some (.high .D)
  | 0x0E => some (.low .D)
  | 0x0F => some (.high .E)
  | 0x10 => some (.low .E)
  | 0x11 => some (.high .G)
  | 0x12 => some (.low .G)
  | _ => none

/-- The value of a view: `(hi << 4) | lo` for a whole register, the bank for a half (R24). -/
def State.readView (s : State) : RegView → Byte
  | .whole r => s.hi.get r ++ s.lo.get r
  | .high r => (s.hi.get r).setWidth 8
  | .low r => (s.lo.get r).setWidth 8

/-- A write of the integer `v` through a view: a whole register takes `v[7:4]` and `v[3:0]`, a half `v[3:0]` (R25). -/
def State.writeView (s : State) (w : RegView) (v : Int) : State :=
  match w with
  | .whole r =>
    { s with hi := s.hi.set r ((BitVec.ofInt 8 v).extractLsb' 4 4), lo := s.lo.set r (BitVec.ofInt 4 v) }
  | .high r => { s with hi := s.hi.set r (BitVec.ofInt 4 v) }
  | .low r => { s with lo := s.lo.set r (BitVec.ofInt 4 v) }

/-- The register file's read port (R24, R26, R30): the value, and the invalid-code signal. -/
def State.readPort (s : State) (c : RegCode) : Byte × Bool :=
  match RegView.ofCode c with
  | some w => (s.readView w, false)
  | none => (0, true)

/-- `x[c]` (R13, R24). -/
def State.readReg (s : State) (c : RegCode) : Byte := (s.readPort c).1

/-- `x[c] <- v` (R13, R25, R26). -/
def State.writeReg (s : State) (c : RegCode) (v : Int) : State :=
  match RegView.ofCode c with
  | some w => s.writeView w v
  | none => s

/-- The register file's write port (R25, R26, R30): the state after the write, and the invalid-code signal. -/
def State.writePort (s : State) (c : RegCode) (v : Int) : State × Bool := (s.writeReg c v, (RegView.ofCode c).isNone)

/-- The code of the whole A register, AX (R22), whose value INT passes (R126). -/
def codeAX : RegCode := 0x01

/-! ### Events, halting and errors -/

/-- `emit P(args)` (R15): the event joins the history and nothing else changes. -/
def State.emit (s : State) (e : Event) : State := { s with log := e :: s.log }

/-- `halt(reason)` (R15, R151). -/
def State.halt (s : State) (r : HaltReason) : State := { s.emit (.halted r) with running := false }

/-- The numeric code of an error (R148). -/
def RuntimeError.code : RuntimeError → Byte
  | .outOfBoundsMemory _ => 0x01
  | .unknownRegister _ => 0x02
  | .unknownOpcode _ => 0x03
  | .unknownAddressingMode _ _ => 0x04
  | .unknownInterrupt _ => 0x05
  | .invalidJumpTarget _ => 0x10
  | .uncaughtExecutionFault _ => 0x11

/-- The class of an error (R148): a fatal one halts the engine. -/
def RuntimeError.fatal : RuntimeError → Bool
  | .outOfBoundsMemory _ => false
  | .unknownRegister _ => false
  | .unknownOpcode _ => false
  | .unknownAddressingMode _ _ => false
  | .unknownInterrupt _ => false
  | .invalidJumpTarget _ => true
  | .uncaughtExecutionFault _ => true

/-- `raise E(info)`: the block's one way to take an exception (R15, R147). A recoverable error leaves the state but for
the error event (R149); a fatal one also clears `running` (R150). Nothing is saved, no mode changes and there is no
handler and no return (R156, R157). -/
def State.raise (s : State) (e : RuntimeError) : State :=
  let s := s.emit (.error e)
  if e.fatal then { s with running := false } else s

/-- `on_state_changed` with the state as it is (R109, R159). -/
def State.notify (s : State) : State :=
  s.emit (.stateChanged { hi := s.hi, lo := s.lo, flags := s.flags, mem := s.mem, pc := s.pc })

/-! ### The instruction stream -/

/-- `Fetch()` (R95): the byte at `pc`, with `pc` moved past it. None at `pc >= 256`. -/
def State.fetchByte (s : State) : Option (Byte × State) :=
  if s.pc.toNat < memorySize then some (s.mem.read s.pc.toNat, { s with pc := s.pc + 1 }) else none

/-- The error of a fetch at `pc >= 256` within an instruction (R95, R148). -/
def State.fetchError (s : State) : RuntimeError := .uncaughtExecutionFault (.fetchOutOfBounds s.pc.toNat)

/-- `IR <- (op, ty)` (R96). -/
def State.latch (s : State) (op ty : Byte) : State := { s with ir := { op := op, type := ty } }

/-- What the fetch of an instruction comes to. -/
inductive Fetched where
  /-- `pc >= 256` at the step's start (R94). -/
  | endOfMemory
  /-- An error before the instruction could run (R95, R97, R98), in the state the step had reached. -/
  | error (e : RuntimeError) (s : State)
  /-- An instruction, in the state after its bytes were fetched (R99). -/
  | run (i : Instr) (s : State)

/-- Fetch the operand bytes the header calls for, dest first (R99), once the header is accepted (R97, R98). -/
def fetchOperands (h : Header) (s : State) : Fetched :=
  match h with
  | .zero i => .run i s
  | .one mk =>
    match s.fetchByte with
    | none => .error s.fetchError s
    | some (b, s) => .run (mk b) s
  | .two mk =>
    match s.fetchByte with
    | none => .error s.fetchError s
    | some (d, s) =>
      match s.fetchByte with
      | none => .error s.fetchError s
      | some (b, s) => .run (mk d b) s
  | .badOpcode op => .error (.unknownOpcode op) s
  | .badMode op ty => .error (.unknownAddressingMode op ty) s

/-- The step's fetches in the order of R94: the opcode byte, the type byte, the latch, then the operands. -/
def fetchInstr (s : State) : Fetched :=
  match s.fetchByte with
  | none => .endOfMemory
  | some (op, s) =>
    match s.fetchByte with
    | none => .error s.fetchError s
    | some (ty, s) => fetchOperands (decodeHeader op ty) (s.latch op ty)

/-- Add the step's last action to an outcome: a step that reaches a state notifies the port (R109). -/
def thenNotify : Result → Result
  | .next s => .next s.notify
  | .fault r => .fault r
  | .refused r => .refused r

/-- Store bytes at rising addresses. -/
def State.storeBytes (s : State) (a : Nat) : List Byte → State
  | [] => s
  | b :: rest => State.storeBytes { s with mem := s.mem.write a b } (a + 1) rest

end Sys2Proof.Machine
end

