-- ==== Sys2Proof/Machine/Operands.lean ====
section
/-! DEFINITION. Operands: their checks, their values and the write-back (40_execution_cycle.md rules R100 to R103). -/

namespace Sys2Proof.Machine

/-- `valid(c)` (R13): the code names a view. -/
def validCode (c : RegCode) : Bool := (RegView.ofCode c).isSome

/-- The register-code check of one operand (R100). Under `P_BADREG = READ_ZERO` no check is made. -/
def State.registerError (s : State) (o : OpClass × Byte) : Option RuntimeError :=
  match o.1, s.cfg.badReg with
  | .R, .abandon => if validCode o.2 then none else some (.unknownRegister o.2)
  | .R, .readZero => none
  | .M, _ => none
  | .I, _ => none

/-- `check_addr(a)` (R102). It never fires here: every address is one byte (R51). -/
def checkAddr (a : Nat) : Option RuntimeError :=
  if memorySize ≤ a then some (.outOfBoundsMemory a) else none

/-- The address check of one operand (R101, R102). -/
def addressError (o : OpClass × Byte) : Option RuntimeError :=
  match o.1 with
  | .M => checkAddr o.2.toNat
  | .R => none
  | .I => none

/-- The first error of an instruction's operands, in the order of R153: every register code, dest first, then every
memory address. -/
def State.operandError (s : State) (os : List (OpClass × Byte)) : Option RuntimeError :=
  match os.findSome? s.registerError with
  | some e => some e
  | none => os.findSome? addressError

/-- `val(cls, b)` (R101). -/
def State.operand (s : State) (c : OpClass) (b : Byte) : Byte :=
  match c with
  | .R => s.readReg b
  | .M => s.memRead b
  | .I => b

/-- `wb(cls, b, r)` (R103): the raw result, cut to the destination's width. An immediate is never a destination (R68). -/
def State.writeBack (s : State) (c : OpClass) (b : Byte) (r : Int) : State :=
  match c with
  | .R => s.writeReg b r
  | .M => s.memWrite b r
  | .I => s

/-- Check an instruction's operands before anything is read or written, and abandon it on an error (R100, R106). -/
def withOperands (s : State) (os : List (OpClass × Byte)) (k : Result) : Result :=
  match s.operandError os with
  | some e => .next (s.raise e)
  | none => k

end Sys2Proof.Machine
end

