-- ==== Sys2Proof/Machine/Flags.lean ====
section
/-! DEFINITION. The Flag Unit (41_flag_unit.md rules R113 to R122). -/

namespace Sys2Proof.Machine

/-- The width threshold `max` (R114). -/
def flagMax (mop : Bool) : Nat := if mop then 0xF else 0xFF

/-- `masked = result & max` (R117), in two's complement (00_scope.md rule R11). -/
def maskedResult (result : Int) (mop : Bool) : Byte := BitVec.ofInt 8 result &&& BitVec.ofNat 8 (flagMax mop)

/-- The number of 1 bits of a byte (R12). -/
def popcount (v : Byte) : Nat := ((List.range 8).filter fun i => v.getLsbD i).length

/-- `update_from_result(result, mop)` (R113): CF and OF by the range test, ZF, SF and PF from the masked result. IF and
MOP keep their values. -/
def flagUnit (result : Int) (mop : Bool) (f : Flags) : Flags :=
  let carry := decide (result > flagMax mop) || decide (result < 0)
  let masked := maskedResult result mop
  { f with
    CF := carry
    OF := carry
    ZF := decide (masked = 0)
    SF := decide (masked &&& (if mop then 0x08 else 0x80) ≠ 0)
    PF := decide (popcount masked % 2 = 0) }

/-- The Flag Unit run on a result under the state's MOP (R104). -/
def State.updateFlags (s : State) (result : Int) : State :=
  { s with flags := flagUnit result s.flags.MOP s.flags }

end Sys2Proof.Machine
end

