-- ==== Sys2Proof/Machine/Alu.lean ====
section
/-! DEFINITION. Arithmetic, logic, shift and compare (44_alu.md rules R132 to R142): the integer each computes, the
template they share (40_execution_cycle.md rule R104) and NOT. -/

namespace Sys2Proof.Machine

/-- ADD: `a + b` (R133). -/
def addResult (a b : Nat) : Int := (a : Int) + b

/-- SUB and CMP: `a - b` (R134, R141). -/
def subResult (a b : Nat) : Int := (a : Int) - b

/-- AND: `a & b` (R135). -/
def andResult (a b : Nat) : Int := (a &&& b : Nat)

/-- OR: `a | b` (R136). -/
def orResult (a b : Nat) : Int := (a ||| b : Nat)

/-- XOR: `a ^ b` (R137). -/
def xorResult (a b : Nat) : Int := (a ^^^ b : Nat)

/-- SHL: `a << (b & 7)`, that is `a * 2^n` (R139, R12). -/
def shlResult (a b : Nat) : Int := (a * 2 ^ (b &&& 7) : Nat)

/-- SHR: `a >> (b & 7)`, that is `floor(a / 2^n)` (R140, R12). -/
def shrResult (a b : Nat) : Int := (a / 2 ^ (b &&& 7) : Nat)

/-- NOT: `-a - 1`, or `255 - a` under `P_NOT_RESULT = ZEXT8` (R138). -/
def notResult (p : NotResult) (a : Nat) : Int :=
  match p with
  | .complementI32 => -(a : Int) - 1
  | .zext8 => 255 - (a : Int)

/-- The template `binop(f, w, ty, db, sb)` (R104): both values are read before the write (R105), the raw result is
written if `w`, and the Flag Unit sees the raw result. -/
def binop (f : Nat → Nat → Int) (w : Bool) (m : Mode2) (d b : Byte) (s : State) : Result :=
  withOperands s [(m.dest, d), (m.src, b)] <|
    let r := f (s.operand m.dest d).toNat (s.operand m.src b).toNat
    let t := if w then s.writeBack m.dest d r else s
    .next (t.updateFlags r)

/-- NOT (R138): one operand, both source and destination. -/
def complement (m : Mode1) (b : Byte) (s : State) : Result :=
  withOperands s [(m.cls, b)] <|
    let r := notResult s.cfg.notResult (s.operand m.cls b).toNat
    .next ((s.writeBack m.cls b r).updateFlags r)

/-- `ADD r1, r2` (R133). -/
def execAddRR (d : RegCode) (c : RegCode) (s : State) : Result := binop addResult true .rr d c s

/-- `ADD r, [a]` (R133). -/
def execAddRM (d : RegCode) (a : Addr) (s : State) : Result := binop addResult true .rm d a s

/-- `ADD [a], r` (R133). -/
def execAddMR (a : Addr) (c : RegCode) (s : State) : Result := binop addResult true .mr a c s

/-- `ADD r, #k` (R133). -/
def execAddRI (d : RegCode) (k : Imm) (s : State) : Result := binop addResult true .ri d k s

/-- `ADD [a1], [a2]` (R133). -/
def execAddMM (a : Addr) (b : Addr) (s : State) : Result := binop addResult true .mm a b s

/-- `ADD [a], #k` (R133). -/
def execAddMI (a : Addr) (k : Imm) (s : State) : Result := binop addResult true .mi a k s

/-- `SUB r1, r2` (R134). -/
def execSubRR (d : RegCode) (c : RegCode) (s : State) : Result := binop subResult true .rr d c s

/-- `SUB r, [a]` (R134). -/
def execSubRM (d : RegCode) (a : Addr) (s : State) : Result := binop subResult true .rm d a s

/-- `SUB [a], r` (R134). -/
def execSubMR (a : Addr) (c : RegCode) (s : State) : Result := binop subResult true .mr a c s

/-- `SUB r, #k` (R134). -/
def execSubRI (d : RegCode) (k : Imm) (s : State) : Result := binop subResult true .ri d k s

/-- `SUB [a1], [a2]` (R134). -/
def execSubMM (a : Addr) (b : Addr) (s : State) : Result := binop subResult true .mm a b s

/-- `SUB [a], #k` (R134). -/
def execSubMI (a : Addr) (k : Imm) (s : State) : Result := binop subResult true .mi a k s

/-- `AND r1, r2` (R135). -/
def execAndRR (d : RegCode) (c : RegCode) (s : State) : Result := binop andResult true .rr d c s

/-- `AND r, [a]` (R135). -/
def execAndRM (d : RegCode) (a : Addr) (s : State) : Result := binop andResult true .rm d a s

/-- `AND [a], r` (R135). -/
def execAndMR (a : Addr) (c : RegCode) (s : State) : Result := binop andResult true .mr a c s

/-- `AND r, #k` (R135). -/
def execAndRI (d : RegCode) (k : Imm) (s : State) : Result := binop andResult true .ri d k s

/-- `AND [a1], [a2]` (R135). -/
def execAndMM (a : Addr) (b : Addr) (s : State) : Result := binop andResult true .mm a b s

/-- `AND [a], #k` (R135). -/
def execAndMI (a : Addr) (k : Imm) (s : State) : Result := binop andResult true .mi a k s

/-- `OR r1, r2` (R136). -/
def execOrRR (d : RegCode) (c : RegCode) (s : State) : Result := binop orResult true .rr d c s

/-- `OR r, [a]` (R136). -/
def execOrRM (d : RegCode) (a : Addr) (s : State) : Result := binop orResult true .rm d a s

/-- `OR [a], r` (R136). -/
def execOrMR (a : Addr) (c : RegCode) (s : State) : Result := binop orResult true .mr a c s

/-- `OR r, #k` (R136). -/
def execOrRI (d : RegCode) (k : Imm) (s : State) : Result := binop orResult true .ri d k s

/-- `OR [a1], [a2]` (R136). -/
def execOrMM (a : Addr) (b : Addr) (s : State) : Result := binop orResult true .mm a b s

/-- `OR [a], #k` (R136). -/
def execOrMI (a : Addr) (k : Imm) (s : State) : Result := binop orResult true .mi a k s

/-- `XOR r1, r2` (R137). -/
def execXorRR (d : RegCode) (c : RegCode) (s : State) : Result := binop xorResult true .rr d c s

/-- `XOR r, [a]` (R137). -/
def execXorRM (d : RegCode) (a : Addr) (s : State) : Result := binop xorResult true .rm d a s

/-- `XOR [a], r` (R137). -/
def execXorMR (a : Addr) (c : RegCode) (s : State) : Result := binop xorResult true .mr a c s

/-- `XOR r, #k` (R137). -/
def execXorRI (d : RegCode) (k : Imm) (s : State) : Result := binop xorResult true .ri d k s

/-- `XOR [a1], [a2]` (R137). -/
def execXorMM (a : Addr) (b : Addr) (s : State) : Result := binop xorResult true .mm a b s

/-- `XOR [a], #k` (R137). -/
def execXorMI (a : Addr) (k : Imm) (s : State) : Result := binop xorResult true .mi a k s

/-- `NOT r` (R138). -/
def execNotR (c : RegCode) (s : State) : Result := complement .reg c s

/-- `NOT [a]` (R138). -/
def execNotM (a : Addr) (s : State) : Result := complement .mem a s

/-- `SHL r1, r2` (R139). -/
def execShlRR (d : RegCode) (c : RegCode) (s : State) : Result := binop shlResult true .rr d c s

/-- `SHL r, [a]` (R139). -/
def execShlRM (d : RegCode) (a : Addr) (s : State) : Result := binop shlResult true .rm d a s

/-- `SHL [a], r` (R139). -/
def execShlMR (a : Addr) (c : RegCode) (s : State) : Result := binop shlResult true .mr a c s

/-- `SHL r, #k` (R139). -/
def execShlRI (d : RegCode) (k : Imm) (s : State) : Result := binop shlResult true .ri d k s

/-- `SHL [a1], [a2]` (R139). -/
def execShlMM (a : Addr) (b : Addr) (s : State) : Result := binop shlResult true .mm a b s

/-- `SHL [a], #k` (R139). -/
def execShlMI (a : Addr) (k : Imm) (s : State) : Result := binop shlResult true .mi a k s

/-- `SHR r1, r2` (R140). -/
def execShrRR (d : RegCode) (c : RegCode) (s : State) : Result := binop shrResult true .rr d c s

/-- `SHR r, [a]` (R140). -/
def execShrRM (d : RegCode) (a : Addr) (s : State) : Result := binop shrResult true .rm d a s

/-- `SHR [a], r` (R140). -/
def execShrMR (a : Addr) (c : RegCode) (s : State) : Result := binop shrResult true .mr a c s

/-- `SHR r, #k` (R140). -/
def execShrRI (d : RegCode) (k : Imm) (s : State) : Result := binop shrResult true .ri d k s

/-- `SHR [a1], [a2]` (R140). -/
def execShrMM (a : Addr) (b : Addr) (s : State) : Result := binop shrResult true .mm a b s

/-- `SHR [a], #k` (R140). -/
def execShrMI (a : Addr) (k : Imm) (s : State) : Result := binop shrResult true .mi a k s

/-- `CMP r1, r2` (R141). -/
def execCmpRR (d : RegCode) (c : RegCode) (s : State) : Result := binop subResult false .rr d c s

/-- `CMP r, [a]` (R141). -/
def execCmpRM (d : RegCode) (a : Addr) (s : State) : Result := binop subResult false .rm d a s

/-- `CMP [a], r` (R141). -/
def execCmpMR (a : Addr) (c : RegCode) (s : State) : Result := binop subResult false .mr a c s

/-- `CMP r, #k` (R141). -/
def execCmpRI (d : RegCode) (k : Imm) (s : State) : Result := binop subResult false .ri d k s

/-- `CMP [a1], [a2]` (R141). -/
def execCmpMM (a : Addr) (b : Addr) (s : State) : Result := binop subResult false .mm a b s

/-- `CMP [a], #k` (R141). -/
def execCmpMI (a : Addr) (k : Imm) (s : State) : Result := binop subResult false .mi a k s

end Sys2Proof.Machine
end

