-- ==== Sys2Proof/Machine/Branch.lean ====
section
/-! DEFINITION. The jumps JMP, JZ and JC (45_branch.md rules R143 to R146). -/

namespace Sys2Proof.Machine

/-- `jump(cond, ty, b)` (R143): when the condition is false the operand is neither checked nor resolved. The target is
absolute, and the memory form jumps to the cell's content. -/
def jump (cond : Bool) (m : Mode1) (b : Byte) (s : State) : Result :=
  if cond then
    withOperands s [(m.cls, b)] <|
      let t := (s.operand m.cls b).toNat
      if memorySize ≤ t then .next (s.raise (.invalidJumpTarget t))
      else .next { s with pc := BitVec.ofNat 9 t }
  else .next s

/-- `JMP r` (R144). -/
def execJmpR (c : RegCode) (s : State) : Result := jump true .reg c s

/-- `JMP [a]` (R144). -/
def execJmpM (a : Addr) (s : State) : Result := jump true .mem a s

/-- `JMP #k` (R144). -/
def execJmpI (k : Imm) (s : State) : Result := jump true .imm k s

/-- `JZ r` (R145). -/
def execJzR (c : RegCode) (s : State) : Result := jump s.flags.ZF .reg c s

/-- `JZ [a]` (R145). -/
def execJzM (a : Addr) (s : State) : Result := jump s.flags.ZF .mem a s

/-- `JZ #k` (R145). -/
def execJzI (k : Imm) (s : State) : Result := jump s.flags.ZF .imm k s

/-- `JC r` (R146). -/
def execJcR (c : RegCode) (s : State) : Result := jump s.flags.CF .reg c s

/-- `JC [a]` (R146). -/
def execJcM (a : Addr) (s : State) : Result := jump s.flags.CF .mem a s

/-- `JC #k` (R146). -/
def execJcI (k : Imm) (s : State) : Result := jump s.flags.CF .imm k s

end Sys2Proof.Machine
end

