-- ==== Sys2Proof/Machine/Mov.lean ====
section
/-! DEFINITION. MOV and MOV MOP (43_mov.md rules R128 to R131). -/

namespace Sys2Proof.Machine

/-- MOV (R128): the src operand's value is written to the dest operand, and no flag is written. -/
def move (m : Mode2) (d b : Byte) (s : State) : Result :=
  withOperands s [(m.dest, d), (m.src, b)] <|
    .next (s.writeBack m.dest d (s.operand m.src b).toNat)

/-- `MOV r1, r2` (R128). -/
def execMovRR (d : RegCode) (c : RegCode) (s : State) : Result := move .rr d c s

/-- `MOV r, [a]` (R128). -/
def execMovRM (d : RegCode) (a : Addr) (s : State) : Result := move .rm d a s

/-- `MOV [a], r` (R128). -/
def execMovMR (a : Addr) (c : RegCode) (s : State) : Result := move .mr a c s

/-- `MOV r, #k` (R128). -/
def execMovRI (d : RegCode) (k : Imm) (s : State) : Result := move .ri d k s

/-- `MOV [a1], [a2]` (R128). -/
def execMovMM (a : Addr) (b : Addr) (s : State) : Result := move .mm a b s

/-- `MOV [a], #k` (R128). -/
def execMovMI (a : Addr) (k : Imm) (s : State) : Result := move .mi a k s

/-- `MOV MOP, #k` (R130): `MOP <- (k != 0)`. No other flag is written. -/
def execMovMop (k : Imm) (s : State) : Result := .next { s with flags := { s.flags with MOP := decide (k ≠ 0) } }

end Sys2Proof.Machine
end

