-- ==== Sys2Proof/Machine/System.lean ====
section
/-! DEFINITION. NOP, HLT and INT (42_system.md rules R123 to R127). Each meaning runs in the state after the
instruction's bytes were fetched and IR was latched (R94). -/

namespace Sys2Proof.Machine

/-- INT (R125, R126): number 0 or 1 goes to the port with the value of AX, any other number is `UnknownInterrupt`. No
state is saved and control goes on at the next instruction (R127). -/
def interrupt (m : Mode1) (b : Byte) (s : State) : Result :=
  withOperands s [(m.cls, b)] <|
    let n := s.operand m.cls b
    if n = 0 then .next (s.emit (.interrupt 0 (s.readReg codeAX)))
    else if n = 1 then .next (s.emit (.interrupt 1 (s.readReg codeAX)))
    else .next (s.raise (.unknownInterrupt n))

/-- `NOP` (R123). The type byte is ignored (R76). -/
def execNop (_ty : Byte) (s : State) : Result := .next s

/-- `HLT` (R124): `halt(Halt)`. The type byte is ignored (R76). -/
def execHlt (_ty : Byte) (s : State) : Result := .next (s.halt .halt)

/-- `INT r` (R125). -/
def execIntR (c : RegCode) (s : State) : Result := interrupt .reg c s

/-- `INT [a]` (R125). -/
def execIntM (a : Addr) (s : State) : Result := interrupt .mem a s

/-- `INT #k` (R125). -/
def execIntI (k : Imm) (s : State) : Result := interrupt .imm k s

end Sys2Proof.Machine
end

