-- ==== Sys2Proof/Machine/Dispatch.lean ====
section
/-! DEFINITION. One arm per constructor of Instr (30_encoding.md rule R77). -/

namespace Sys2Proof.Machine

def exec (i : Instr) (s : State) : Host.Outcome State Fault Refusal :=
  match i with
  | .nop ty => Sys2Proof.Machine.execNop ty s
  | .hlt ty => Sys2Proof.Machine.execHlt ty s
  | .intR c => Sys2Proof.Machine.execIntR c s
  | .intM a => Sys2Proof.Machine.execIntM a s
  | .intI k => Sys2Proof.Machine.execIntI k s
  | .movRR d c => Sys2Proof.Machine.execMovRR d c s
  | .movRM d a => Sys2Proof.Machine.execMovRM d a s
  | .movMR a c => Sys2Proof.Machine.execMovMR a c s
  | .movRI d k => Sys2Proof.Machine.execMovRI d k s
  | .movMM a b => Sys2Proof.Machine.execMovMM a b s
  | .movMI a k => Sys2Proof.Machine.execMovMI a k s
  | .movMop k => Sys2Proof.Machine.execMovMop k s
  | .addRR d c => Sys2Proof.Machine.execAddRR d c s
  | .addRM d a => Sys2Proof.Machine.execAddRM d a s
  | .addMR a c => Sys2Proof.Machine.execAddMR a c s
  | .addRI d k => Sys2Proof.Machine.execAddRI d k s
  | .addMM a b => Sys2Proof.Machine.execAddMM a b s
  | .addMI a k => Sys2Proof.Machine.execAddMI a k s
  | .subRR d c => Sys2Proof.Machine.execSubRR d c s
  | .subRM d a => Sys2Proof.Machine.execSubRM d a s
  | .subMR a c => Sys2Proof.Machine.execSubMR a c s
  | .subRI d k => Sys2Proof.Machine.execSubRI d k s
  | .subMM a b => Sys2Proof.Machine.execSubMM a b s
  | .subMI a k => Sys2Proof.Machine.execSubMI a k s
  | .andRR d c => Sys2Proof.Machine.execAndRR d c s
  | .andRM d a => Sys2Proof.Machine.execAndRM d a s
  | .andMR a c => Sys2Proof.Machine.execAndMR a c s
  | .andRI d k => Sys2Proof.Machine.execAndRI d k s
  | .andMM a b => Sys2Proof.Machine.execAndMM a b s
  | .andMI a k => Sys2Proof.Machine.execAndMI a k s
  | .orRR d c => Sys2Proof.Machine.execOrRR d c s
  | .orRM d a => Sys2Proof.Machine.execOrRM d a s
  | .orMR a c => Sys2Proof.Machine.execOrMR a c s
  | .orRI d k => Sys2Proof.Machine.execOrRI d k s
  | .orMM a b => Sys2Proof.Machine.execOrMM a b s
  | .orMI a k => Sys2Proof.Machine.execOrMI a k s
  | .xorRR d c => Sys2Proof.Machine.execXorRR d c s
  | .xorRM d a => Sys2Proof.Machine.execXorRM d a s
  | .xorMR a c => Sys2Proof.Machine.execXorMR a c s
  | .xorRI d k => Sys2Proof.Machine.execXorRI d k s
  | .xorMM a b => Sys2Proof.Machine.execXorMM a b s
  | .xorMI a k => Sys2Proof.Machine.execXorMI a k s
  | .notR c => Sys2Proof.Machine.execNotR c s
  | .notM a => Sys2Proof.Machine.execNotM a s
  | .jmpR c => Sys2Proof.Machine.execJmpR c s
  | .jmpM a => Sys2Proof.Machine.execJmpM a s
  | .jmpI k => Sys2Proof.Machine.execJmpI k s
  | .jzR c => Sys2Proof.Machine.execJzR c s
  | .jzM a => Sys2Proof.Machine.execJzM a s
  | .jzI k => Sys2Proof.Machine.execJzI k s
  | .jcR c => Sys2Proof.Machine.execJcR c s
  | .jcM a => Sys2Proof.Machine.execJcM a s
  | .jcI k => Sys2Proof.Machine.execJcI k s
  | .shlRR d c => Sys2Proof.Machine.execShlRR d c s
  | .shlRM d a => Sys2Proof.Machine.execShlRM d a s
  | .shlMR a c => Sys2Proof.Machine.execShlMR a c s
  | .shlRI d k => Sys2Proof.Machine.execShlRI d k s
  | .shlMM a b => Sys2Proof.Machine.execShlMM a b s
  | .shlMI a k => Sys2Proof.Machine.execShlMI a k s
  | .shrRR d c => Sys2Proof.Machine.execShrRR d c s
  | .shrRM d a => Sys2Proof.Machine.execShrRM d a s
  | .shrMR a c => Sys2Proof.Machine.execShrMR a c s
  | .shrRI d k => Sys2Proof.Machine.execShrRI d k s
  | .shrMM a b => Sys2Proof.Machine.execShrMM a b s
  | .shrMI a k => Sys2Proof.Machine.execShrMI a k s
  | .cmpRR d c => Sys2Proof.Machine.execCmpRR d c s
  | .cmpRM d a => Sys2Proof.Machine.execCmpRM d a s
  | .cmpMR a c => Sys2Proof.Machine.execCmpMR a c s
  | .cmpRI d k => Sys2Proof.Machine.execCmpRI d k s
  | .cmpMM a b => Sys2Proof.Machine.execCmpMM a b s
  | .cmpMI a k => Sys2Proof.Machine.execCmpMI a k s

end Sys2Proof.Machine
end

