-- ==== Sys2Proof/Machine/Step.lean ====
section
/-! DEFINITION. One step of the engine (40_execution_cycle.md rules R93, R94, R112) and the placing of an instruction
where the next step fetches. -/

namespace Sys2Proof.Machine

/-- `step()` (R94). It does not read `running` (R112), and it ends with `on_state_changed` whatever its outcome (R109). -/
def step (s : State) : Host.Outcome State Fault Refusal :=
  match fetchInstr s with
  | .endOfMemory => thenNotify (.next (s.halt .endOfMemory))
  | .error e s => thenNotify (.next (s.raise e))
  | .run i s => thenNotify (exec i s)

/-- The state with the instruction of a table word stored where the next step fetches: at `pc`, in four bytes. Where
four bytes do not fit before the end of memory, `pc` is first set to 0 (notes/assumptions/7.md). -/
def State.withFetchWord (s : State) (nbits w : Nat) : State :=
  let base : Pc := if s.pc.toNat + 4 ≤ memorySize then s.pc else 0
  State.storeBytes { s with pc := base } base.toNat (tableBytes nbits w)

end Sys2Proof.Machine
end

