-- ==== Sys2Proof/Machine/RunControl.lean ====
section
/-! DEFINITION. What the host can do to the block between steps: reset, load, step, run and stop
(70_reset_and_hazards.md rules R166 to R175). -/

namespace Sys2Proof.Machine

/-- `reset()` (R166): every piece of the block's state takes its reset value. The parameters are fixed (R8, R9) and the
history of events is never cleared (R152), so those two stay. -/
def State.hostReset (s : State) : State := { State.reset with cfg := s.cfg, log := s.log }

/-- The load of a memory image (R170, R175): `mem[0..n-1]` takes the image and every other cell stays. The host writes
memory only before a run (R62; 92_eei_decisions.md D22), so a load while `running` is 1 writes nothing, and an image
longer than memory is refused before any byte is written (R92). See notes/assumptions/8.md. -/
def State.load (s : State) (image : List Byte) : State :=
  if s.running = false ∧ image.length ≤ memorySize then s.storeBytes 0 image else s

/-- `stop()` (R173): `running <- 0` and the halt event `Stop`. -/
def State.stop (s : State) : State := s.halt .stop

/-- The first action of `run()` (R172). -/
def State.startRun (s : State) : State := { s with running := true }

/-- One host tick of `run()`'s loop (R172): no step is called once `running` is 0. -/
def tick (s : State) : Result := if s.running then step s else .next s

/-- `n` host ticks of `run()`'s loop (R172). -/
def runTicks : Nat → State → Result
  | 0, s => .next s
  | n + 1, s =>
    match tick s with
    | .next t => runTicks n t
    | .fault r => .fault r
    | .refused r => .refused r

/-- `run()` with `n` host ticks (R172). -/
def run (n : Nat) (s : State) : Result := runTicks n s.startRun

/-- What the host does at one tick boundary (R175). `startRun` and `tick` are the two parts of `run()`, so that a
`stop()` or a `reset()` can come between two ticks of a run (R166, R173). Reading the state changes nothing. -/
inductive HostAction where
  | reset
  | load (image : List Byte)
  | step
  | startRun
  | tick
  | stop
  deriving DecidableEq, Repr

/-- The effect of one host action (R175). -/
def hostAct (a : HostAction) (s : State) : Result :=
  match a with
  | .reset => .next s.hostReset
  | .load image => .next (s.load image)
  | .step => step s
  | .startRun => .next s.startRun
  | .tick => tick s
  | .stop => .next s.stop

/-- A sequence of host actions, oldest first. -/
def hostActs : List HostAction → State → Result
  | [], s => .next s
  | a :: rest, s =>
    match hostAct a s with
    | .next t => hostActs rest t
    | .fault r => .fault r
    | .refused r => .refused r

end Sys2Proof.Machine
end

