-- ==== Sys2Proof/Machine/Assembler.lean ====
section
/-! DEFINITION. The two-pass assembler (30_encoding.md rules R78 to R92). It is toolchain and not hardware (R6): no step
uses it. It is here because it fixes the bytes a program becomes (R170). -/

namespace Sys2Proof.Machine

/-- A line of assembly text, or a piece of one. -/
abbrev Text := List Char

/-- The assembly errors (R90). They go to the host and never reach the block. -/
inductive AsmError where
  | unknownInstruction
  | unknownRegister
  | unknownLabel
  | invalidOperandFormat
  | invalidInstructionFormat
  deriving DecidableEq, Repr

/-- The 16 mnemonics (R70). -/
inductive Mnemonic where
  | NOP
  | HLT
  | INT
  | MOV
  | ADD
  | SUB
  | AND
  | OR
  | XOR
  | NOT
  | JMP
  | JZ
  | JC
  | SHL
  | SHR
  | CMP
  deriving DecidableEq, Repr

/-- Mnemonics match in upper case only (R79, R92). -/
def Mnemonic.ofText : Text → Option Mnemonic
  | ['N', 'O', 'P'] => some .NOP
  | ['H', 'L', 'T'] => some .HLT
  | ['I', 'N', 'T'] => some .INT
  | ['M', 'O', 'V'] => some .MOV
  | ['A', 'D', 'D'] => some .ADD
  | ['S', 'U', 'B'] => some .SUB
  | ['A', 'N', 'D'] => some .AND
  | ['O', 'R'] => some .OR
  | ['X', 'O', 'R'] => some .XOR
  | ['N', 'O', 'T'] => some .NOT
  | ['J', 'M', 'P'] => some .JMP
  | ['J', 'Z'] => some .JZ
  | ['J', 'C'] => some .JC
  | ['S', 'H', 'L'] => some .SHL
  | ['S', 'H', 'R'] => some .SHR
  | ['C', 'M', 'P'] => some .CMP
  | _ => none

/-- The opcode byte of a mnemonic (R70). -/
def Mnemonic.opcode : Mnemonic → Byte
  | .NOP => 0x00
  | .HLT => 0x01
  | .INT => 0x02
  | .MOV => 0x10
  | .ADD => 0x11
  | .SUB => 0x12
  | .AND => 0x13
  | .OR => 0x14
  | .XOR => 0x15
  | .NOT => 0x16
  | .JMP => 0x17
  | .JZ => 0x18
  | .JC => 0x19
  | .SHL => 0x1A
  | .SHR => 0x1B
  | .CMP => 0x1C

/-- How many operands a mnemonic takes (R88). -/
def Mnemonic.arity : Mnemonic → Nat
  | .NOP => 0
  | .HLT => 0
  | .INT => 1
  | .NOT => 1
  | .JMP => 1
  | .JZ => 1
  | .JC => 1
  | .MOV => 2
  | .ADD => 2
  | .SUB => 2
  | .AND => 2
  | .OR => 2
  | .XOR => 2
  | .SHL => 2
  | .SHR => 2
  | .CMP => 2

/-- The mnemonics that take a label (R80, R85). -/
def Mnemonic.isJump (n : Mnemonic) : Bool := n = .JMP || n = .JZ || n = .JC

/-- The register names (R82). -/
def registerName : Text → Option RegCode
  | ['A', 'X'] => some 0x01
  | ['B', 'X'] => some 0x02
  | ['C', 'X'] => some 0x03
  | ['D', 'X'] => some 0x04
  | ['E', 'X'] => some 0x05
  | ['G', 'X'] => some 0x06
  | ['A', 'H'] => some 0x07
  | ['A', 'L'] => some 0x08
  | ['B', 'H'] => some 0x09
  | ['B', 'L'] => some 0x0A
  | ['C', 'H'] => some 0x0B
  | ['C', 'L'] => some 0x0C
  | ['D', 'H'] => some 0x0D
  | ['D', 'L'] => some 0x0E
  | ['E', 'H'] => some 0x0F
  | ['E', 'L'] => some 0x10
  | ['G', 'H'] => some 0x11
  | ['G', 'L'] => some 0x12
  | _ => none

/-- The value of a hexadecimal digit. That a to f may be written in lower case too is the model's choice: DESIGN CHOICE
(notes/assumptions/18.md). -/
def hexDigit (c : Char) : Option Nat :=
  let n := c.toNat
  if 48 ≤ n ∧ n ≤ 57 then some (n - 48)
  else if 65 ≤ n ∧ n ≤ 70 then some (n - 55)
  else if 97 ≤ n ∧ n ≤ 102 then some (n - 87)
  else none

/-- The value of hexadecimal digits, most significant first, after those already read. -/
def hexValue (acc : Nat) : Text → Option Nat
  | [] => some acc
  | c :: cs =>
    match hexDigit c with
    | some d => hexValue (16 * acc + d) cs
    | none => none

/-- A leading `0x` is accepted and ignored (R81). -/
def stripHexMark : Text → Text
  | '0' :: 'x' :: ds => ds
  | ds => ds

/-- The number inside `#...` and `[...]` (R81): hexadecimal, at least one digit, 0x00..0xFF. -/
def hexByte (t : Text) : Except AsmError Byte :=
  match stripHexMark t with
  | [] => .error .invalidOperandFormat
  | d :: ds =>
    match hexValue 0 (d :: ds) with
    | some v => if v ≤ 0xFF then .ok (BitVec.ofNat 8 v) else .error .invalidOperandFormat
    | none => .error .invalidOperandFormat

/-- An operand as written (R80). -/
inductive Token where
  | reg (c : RegCode)
  | mem (a : Addr)
  | imm (k : Imm)
  | mop
  | label (name : Text)
  deriving DecidableEq, Repr

/-- The class of an operand token (R80, R81, R82). -/
def Token.ofText (t : Text) : Except AsmError Token :=
  match t with
  | '#' :: ds =>
    match hexByte ds with
    | .ok k => .ok (.imm k)
    | .error e => .error e
  | '[' :: ds =>
    if ds.getLast? = some ']' then
      match hexByte ds.dropLast with
      | .ok a => .ok (.mem a)
      | .error e => .error e
    else .error .invalidOperandFormat
  | ['M', 'O', 'P'] => .ok .mop
  | t =>
    match registerName t with
    | some c => .ok (.reg c)
    | none => .ok (.label t)

/-- The Label Table: names and the addresses bound to them. -/
abbrev LabelTable := List (Text × Nat)

/-- The address bound to a name. -/
def LabelTable.find : LabelTable → Text → Option Nat
  | [], _ => none
  | (n, a) :: rest, name => if n = name then some a else LabelTable.find rest name

/-- The byte a label operand becomes (R85): the placeholder 0 in pass 1 (no table), the label's address in pass 2. That
pass 1 does not check that the label is defined, so that pass 2 can raise `UnknownLabel` after a pass 1 that succeeded,
is the model's reading: DEDUCED (notes/assumptions/17.md). -/
def labelByte (labels : Option LabelTable) (name : Text) : Except AsmError Byte :=
  match labels with
  | none => .ok 0x00
  | some table =>
    match table.find name with
    | some a => if a ≤ 0xFF then .ok (BitVec.ofNat 8 a) else .error .invalidOperandFormat
    | none => .error .unknownLabel

/-- The bytes of a single-operand instruction (R84, R85). A bare name that is no label operand is `UnknownRegister`
(R80), and `MOP` is no operand of these instructions (92_eei_decisions.md D23). -/
def encodeOne (labels : Option LabelTable) (n : Mnemonic) (o : Token) : Except AsmError (List Byte) :=
  match o with
  | .reg c => .ok [n.opcode, 0x00, c]
  | .mem a => .ok [n.opcode, 0x01, a]
  | .imm k => .ok [n.opcode, 0x03, k]
  | .mop => .error .invalidOperandFormat
  | .label name =>
    if n.isJump then
      match labelByte labels name with
      | .ok a => .ok [n.opcode, 0x03, a]
      | .error e => .error e
    else .error .unknownRegister

/-- The bytes of a two-operand instruction (R65, R83) and of `MOV MOP, #imm` (R86). -/
def encodeTwo (n : Mnemonic) (d s : Token) : Except AsmError (List Byte) :=
  match d, s with
  | .reg d, .reg s => .ok [n.opcode, 0x00, d, s]
  | .reg d, .mem a => .ok [n.opcode, 0x01, d, a]
  | .mem a, .reg s => .ok [n.opcode, 0x02, a, s]
  | .reg d, .imm k => .ok [n.opcode, 0x03, d, k]
  | .mem a, .mem b => .ok [n.opcode, 0x05, a, b]
  | .mem a, .imm k => .ok [n.opcode, 0x06, a, k]
  | .mop, .imm k => if n = .MOV then .ok [n.opcode, 0x04, k] else .error .invalidOperandFormat
  | _, _ => .error .invalidOperandFormat

/-- The bytes of an instruction line's tokens (R79, R83 to R88): the mnemonic is looked up, then the operands are
counted, then each is read, left to right. That order of errors is the model's choice: DESIGN CHOICE
(notes/assumptions/19.md). -/
def encodeTokens (labels : Option LabelTable) (ts : List Text) : Except AsmError (List Byte) :=
  match ts with
  | [] => .ok []
  | m :: operands =>
    match Mnemonic.ofText m with
    | none => .error .unknownInstruction
    | some n =>
      match n.arity, operands with
      | 0, [] => .ok [n.opcode, 0x00]
      | 1, [o] =>
        match Token.ofText o with
        | .error e => .error e
        | .ok o => encodeOne labels n o
      | 2, [d, s] =>
        match Token.ofText d with
        | .error e => .error e
        | .ok d =>
          match Token.ofText s with
          | .error e => .error e
          | .ok s => encodeTwo n d s
      | _, _ => .error .invalidInstructionFormat

/-- The tokens of a text, separated by commas and spaces (R79); `cur` is the token being read, last character first. -/
def splitTokens (cur : Text) : Text → List Text
  | [] => if cur = [] then [] else [cur.reverse]
  | c :: cs =>
    if c = ' ' ∨ c = ',' then
      if cur = [] then splitTokens [] cs else cur.reverse :: splitTokens [] cs
    else splitTokens (c :: cur) cs

/-- A line without its comment (R78). -/
def stripComment (line : Text) : Text := line.takeWhile (· ≠ ';')

/-- A line's label definition, if it has one, and its instruction's tokens (R78). A label definition that is not one
name before a colon is refused. -/
def parseLine (line : Text) : Except AsmError (Option Text × List Text) :=
  let code := stripComment line
  match code.dropWhile (· ≠ ':') with
  | _colon :: rest =>
    match splitTokens [] (code.takeWhile (· ≠ ':')) with
    | [name] => .ok (some name, splitTokens [] rest)
    | _ => .error .invalidOperandFormat
  | [] => .ok (none, splitTokens [] code)

/-- Bind a line's label, if any, to the current address. A label defined twice is refused (R92). -/
def bindLabel (labels : LabelTable) (name : Option Text) (a : Nat) : Except AsmError LabelTable :=
  match name with
  | none => .ok labels
  | some n => if (labels.find n).isSome then .error .invalidOperandFormat else .ok (labels ++ [(n, a)])

/-- Pass 1 (R89): the Label Table and the address after the last instruction. It checks no label operand
(notes/assumptions/17.md). That a line's duplicate label is reported before an error of its instruction is the model's
choice: DESIGN CHOICE (notes/assumptions/19.md). -/
def passOne : List Text → Nat → LabelTable → Except AsmError (LabelTable × Nat)
  | [], a, labels => .ok (labels, a)
  | line :: rest, a, labels =>
    match parseLine line with
    | .error e => .error e
    | .ok (name, ts) =>
      match bindLabel labels name a with
      | .error e => .error e
      | .ok labels =>
        match encodeTokens none ts with
        | .error e => .error e
        | .ok bytes => passOne rest (a + bytes.length) labels

/-- Pass 2 (R89): the memory image, each line's bytes after those of the lines before it, so that the image's length is
the current address. On an error the image holds the bytes of the earlier lines (R90). -/
def passTwo (labels : LabelTable) : List Text → List Byte × Option AsmError
  | [] => ([], none)
  | line :: rest =>
    match parseLine line with
    | .error e => ([], some e)
    | .ok (_, ts) =>
      match encodeTokens (some labels) ts with
      | .error e => ([], some e)
      | .ok bytes =>
        let r := passTwo labels rest
        (bytes ++ r.1, r.2)

/-- The memory image of a program's lines (R89). A program whose bytes would pass 0xFF is refused before any byte is
written (R92), and so is one that pass 1 refuses (notes/assumptions/11.md). That the length is tested after pass 1 has ended, so that an
error of a line is reported first even past 0xFF, is the model's choice: DESIGN CHOICE (notes/assumptions/19.md). -/
def assemble (lines : List Text) : List Byte × Option AsmError :=
  match passOne lines 0 [] with
  | .error e => ([], some e)
  | .ok (labels, total) =>
    if total ≤ memorySize then passTwo labels lines else ([], some .invalidOperandFormat)

/-- The lines of a text. -/
def splitLines (cur : Text) : Text → List Text
  | [] => [cur.reverse]
  | c :: cs => if c = '\n' then cur.reverse :: splitLines [] cs else splitLines (c :: cur) cs

/-- Assemble a program text (R78) and load its memory image, the host's one way to write memory (R62, R170). -/
def assembleText (source : String) (s : State) : State × Option AsmError :=
  let r := assemble (splitLines [] source.toList)
  (s.load r.1, r.2)

end Sys2Proof.Machine
end

