-- ==== Sys2Proof/Safety.lean ====
section
/-! DEFINITION. The terms claims use: the invariant of the machine, what a safe run is, and the effect of an instruction
said in numbers, without the functions the meanings are made of. -/

namespace Sys2Proof.Machine

/-- The invariant every step keeps: memory is in canonical form, `pc` is in 0..256 (R31), IF is 0 (R37) and OF equals
CF (R35, R116). -/
structure State.Inv (s : State) : Prop where
  memWf : s.mem.wf = true
  pcRange : s.pc.toNat ≤ 256
  ifZero : s.flags.IF = false
  ofIsCf : s.flags.OF = s.flags.CF

/-- The errors in a history, newest first (R152). -/
def errorsIn : List Event → List RuntimeError
  | [] => []
  | .error e :: rest => e :: errorsIn rest
  | .interrupt _ _ :: rest => errorsIn rest
  | .halted _ :: rest => errorsIn rest
  | .stateChanged _ :: rest => errorsIn rest

/-- A safe run so far: no error has been raised (R152, R183). -/
def State.ErrorFree (s : State) : Prop := errorsIn s.log = []

/-- The events that end a run (R150, R151): a halt, or a fatal error. -/
def Event.halts : Event → Bool
  | .halted _ => true
  | .error e => e.fatal
  | .interrupt _ _ => false
  | .stateChanged _ => false

/-- `on_state_changed` of a state (R159). -/
def State.snapshot (s : State) : Event :=
  .stateChanged { hi := s.hi, lo := s.lo, flags := s.flags, mem := s.mem, pc := s.pc }

/-- The bytes from `pc` to the end of memory, in the order the step fetches them (R95). -/
def State.bytesFromPc (s : State) : List Byte :=
  (List.range (memorySize - s.pc.toNat)).map fun k => s.mem.read (s.pc.toNat + k)

/-- `s` after the step has fetched the instruction of `n` bytes at `pc` and latched IR (R95, R96, R99). -/
def State.fetched (s : State) (n : Nat) : State :=
  { s with
    pc := BitVec.ofNat 9 (s.pc.toNat + n)
    ir := { op := s.mem.read s.pc.toNat, type := s.mem.read (s.pc.toNat + 1) } }

/-- A register operand the instruction goes on with: its code is in 0x01..0x12, or `P_BADREG` is `READ_ZERO` (R100). An
operand of another class is always so. That an invalid code sends no event under `READ_ZERO` is the model's choice
(notes/assumptions/5.md), and so is every claim of a ready operand that the history stays, in that case. -/
def State.OperandReady (s : State) (c : OpClass) (b : Byte) : Prop :=
  c = .R → (1 ≤ b.toNat ∧ b.toNat ≤ 18) ∨ s.cfg.badReg = .readZero

/-- `x[d] <- r` said bank by bank (R22, R25): codes 7..18 name the twelve banks, and the whole register of code `d ≤ 6`
is made of the banks of codes `2d + 5` (high) and `2d + 6` (low). Every other bank keeps its value. -/
def RegisterWritten (d : RegCode) (r : Int) (s t : State) : Prop :=
  ∀ q : RegCode, 7 ≤ q.toNat → q.toNat ≤ 18 →
    ((t.readReg q).toNat : Int) =
      if q = d ∨ (d.toNat ≤ 6 ∧ q.toNat = 2 * d.toNat + 6) then r % 16
      else if d.toNat ≤ 6 ∧ q.toNat = 2 * d.toNat + 5 then r / 16 % 16
      else ((s.readReg q).toNat : Int)

/-- Every register keeps its value. -/
def RegistersKept (s t : State) : Prop := ∀ q : RegCode, t.readReg q = s.readReg q

/-- The cell at `a` holds `r mod 256` and every other address reads as before (R49). -/
def MemoryWritten (a : Addr) (r : Int) (s t : State) : Prop :=
  ∀ x : Nat, t.mem.read x = if x = a.toNat then BitVec.ofNat 8 (r % 256).toNat else s.mem.read x

/-- Every address reads as before. -/
def MemoryKept (s t : State) : Prop := ∀ x : Nat, t.mem.read x = s.mem.read x

/-- The dest operand takes `r`, cut to its width, and no other register and no other byte changes (R103). -/
def DestWritten (c : OpClass) (d : Byte) (r : Int) (s t : State) : Prop :=
  match c with
  | .R => RegisterWritten d r s t ∧ MemoryKept s t
  | .M => MemoryWritten d r s t ∧ RegistersKept s t
  | .I => RegistersKept s t ∧ MemoryKept s t

/-- The five flags as the spec derives them from a result (R113 to R120), in numbers: with `w` = 16 or 256 values,
CF and OF say the result is outside 0..w-1, and ZF, SF and PF come from the result mod `w`. IF and MOP stay. -/
def FlagsDerived (r : Int) (f g : Flags) : Prop :=
  let w : Int := if f.MOP then 16 else 256
  let masked : Nat := (r % w).toNat
  let ones : Nat := masked % 2 + masked / 2 % 2 + masked / 4 % 2 + masked / 8 % 2
    + masked / 16 % 2 + masked / 32 % 2 + masked / 64 % 2 + masked / 128 % 2
  (g.CF = true ↔ r < 0 ∨ w ≤ r) ∧ g.OF = g.CF ∧ (g.ZF = true ↔ masked = 0) ∧
    (g.SF = true ↔ w ≤ 2 * (masked : Int)) ∧ (g.PF = true ↔ ones % 2 = 0) ∧ g.IF = f.IF ∧ g.MOP = f.MOP

/-- `pc`, IR, `running`, the parameters and the history of events stay. -/
def ControlKept (s t : State) : Prop :=
  t.pc = s.pc ∧ t.ir = s.ir ∧ t.running = s.running ∧ t.cfg = s.cfg ∧ t.log = s.log

/-- The bytes of a two-operand instruction in its six modes (R64, R65, R70). -/
def TwoOperandBytes (op : Byte) (mk : Mode2 → Byte → Byte → Instr) : Prop :=
  ∀ d b : Byte,
    decode [op, 0x00, d, b] = .ok (mk .rr d b, []) ∧ decode [op, 0x01, d, b] = .ok (mk .rm d b, []) ∧
    decode [op, 0x02, d, b] = .ok (mk .mr d b, []) ∧ decode [op, 0x03, d, b] = .ok (mk .ri d b, []) ∧
    decode [op, 0x05, d, b] = .ok (mk .mm d b, []) ∧ decode [op, 0x06, d, b] = .ok (mk .mi d b, [])

/-- The bytes of a one-operand instruction in its three modes (R64, R67, R70). -/
def OneOperandBytes (op : Byte) (mk : Mode1 → Byte → Instr) : Prop :=
  ∀ b : Byte,
    decode [op, 0x00, b] = .ok (mk .reg b, []) ∧ decode [op, 0x01, b] = .ok (mk .mem b, []) ∧
    decode [op, 0x03, b] = .ok (mk .imm b, [])

/-- A two-operand ALU instruction that writes its result (R104, R132): its bytes; and, whenever its register operands
are ready, it completes, its dest takes the result of the values read before, the flags are derived from the raw result,
and nothing else changes. With an invalid code under `READ_ZERO`, that the history stays is the model's choice
(notes/assumptions/5.md). -/
def WritesResult (op : Byte) (mk : Mode2 → Byte → Byte → Instr) (result : Byte → Byte → Int) : Prop :=
  TwoOperandBytes op mk ∧ ∀ (m : Mode2) (d b : Byte) (s : State),
    s.mem.wf = true → s.OperandReady m.dest d → s.OperandReady m.src b →
      ∃ t, exec (mk m d b) s = .next t ∧
        DestWritten m.dest d (result (s.operand m.dest d) (s.operand m.src b)) s t ∧
        FlagsDerived (result (s.operand m.dest d) (s.operand m.src b)) s.flags t.flags ∧
        ControlKept s t

/-- A jump (R143): its bytes; not taken it changes nothing, whatever its operand; taken with a ready operand it sets
`pc` to the operand's value; nothing else changes either way. Taken through an invalid code under `READ_ZERO`, that no
event is sent is the model's choice (notes/assumptions/5.md). -/
def Jumps (op : Byte) (mk : Mode1 → Byte → Instr) (cond : State → Prop) : Prop :=
  OneOperandBytes op mk ∧ ∀ (m : Mode1) (b : Byte) (s : State),
    (¬ cond s → exec (mk m b) s = .next s) ∧
    (cond s → s.OperandReady m.cls b →
      exec (mk m b) s = .next { s with pc := BitVec.ofNat 9 (s.operand m.cls b).toNat })

/-- The target of a jump that is taken: its condition holds and its operand is ready (R110, R143). -/
def jumpTarget (i : Instr) (s : State) : Option Nat :=
  let ready (c : RegCode) : Bool := regCodeOk c || decide (s.cfg.badReg = .readZero)
  match i with
  | .jmpR c => if ready c then some (s.readReg c).toNat else none
  | .jmpM a => some (s.memRead a).toNat
  | .jmpI k => some k.toNat
  | .jzR c => if s.flags.ZF && ready c then some (s.readReg c).toNat else none
  | .jzM a => if s.flags.ZF then some (s.memRead a).toNat else none
  | .jzI k => if s.flags.ZF then some k.toNat else none
  | .jcR c => if s.flags.CF && ready c then some (s.readReg c).toNat else none
  | .jcM a => if s.flags.CF then some (s.memRead a).toNat else none
  | .jcI k => if s.flags.CF then some k.toNat else none
  | _ => none

/-- The nine mnemonics that run the Flag Unit (R121), by their opcode byte. -/
def runsFlagUnit (i : Instr) : Bool :=
  match encode i with
  | op :: _ => decide (op.toNat ∈ [0x11, 0x12, 0x13, 0x14, 0x15, 0x16, 0x1A, 0x1B, 0x1C])
  | [] => false

/-- The address an instruction stores to, if it stores: the byte of its memory-class dest operand (R65, R68, R103). CMP
only reads its dest (R141), and a jump or INT its operand. -/
def storedTo : Instr → Option Addr
  | .movMR a _ | .movMM a _ | .movMI a _ => some a
  | .addMR a _ | .addMM a _ | .addMI a _ => some a
  | .subMR a _ | .subMM a _ | .subMI a _ => some a
  | .andMR a _ | .andMM a _ | .andMI a _ => some a
  | .orMR a _ | .orMM a _ | .orMI a _ => some a
  | .xorMR a _ | .xorMM a _ | .xorMI a _ => some a
  | .shlMR a _ | .shlMM a _ | .shlMI a _ => some a
  | .shrMR a _ | .shrMM a _ | .shrMI a _ => some a
  | .notM a => some a
  | .nop _ | .hlt _ | .movMop _ | .notR _ => none
  | .intR _ | .intM _ | .intI _ => none
  | .jmpR _ | .jmpM _ | .jmpI _ | .jzR _ | .jzM _ | .jzI _ | .jcR _ | .jcM _ | .jcI _ => none
  | .movRR _ _ | .movRM _ _ | .movRI _ _ => none
  | .addRR _ _ | .addRM _ _ | .addRI _ _ => none
  | .subRR _ _ | .subRM _ _ | .subRI _ _ => none
  | .andRR _ _ | .andRM _ _ | .andRI _ _ => none
  | .orRR _ _ | .orRM _ _ | .orRI _ _ => none
  | .xorRR _ _ | .xorRM _ _ | .xorRI _ _ => none
  | .shlRR _ _ | .shlRM _ _ | .shlRI _ _ => none
  | .shrRR _ _ | .shrRM _ _ | .shrRI _ _ => none
  | .cmpRR _ _ | .cmpRM _ _ | .cmpMR _ _ | .cmpRI _ _ | .cmpMM _ _ | .cmpMI _ _ => none

/-- The register code an instruction writes through, if it writes a register: its register-class dest operand (R65, R68,
R103). CMP only reads its dest (R141), and a jump or INT its operand. -/
def registerWrittenBy : Instr → Option RegCode
  | .movRR d _ | .movRM d _ | .movRI d _ => some d
  | .addRR d _ | .addRM d _ | .addRI d _ => some d
  | .subRR d _ | .subRM d _ | .subRI d _ => some d
  | .andRR d _ | .andRM d _ | .andRI d _ => some d
  | .orRR d _ | .orRM d _ | .orRI d _ => some d
  | .xorRR d _ | .xorRM d _ | .xorRI d _ => some d
  | .shlRR d _ | .shlRM d _ | .shlRI d _ => some d
  | .shrRR d _ | .shrRM d _ | .shrRI d _ => some d
  | .notR d => some d
  | .nop _ | .hlt _ | .movMop _ | .notM _ => none
  | .intR _ | .intM _ | .intI _ => none
  | .jmpR _ | .jmpM _ | .jmpI _ | .jzR _ | .jzM _ | .jzI _ | .jcR _ | .jcM _ | .jcI _ => none
  | .movMR _ _ | .movMM _ _ | .movMI _ _ => none
  | .addMR _ _ | .addMM _ _ | .addMI _ _ => none
  | .subMR _ _ | .subMM _ _ | .subMI _ _ => none
  | .andMR _ _ | .andMM _ _ | .andMI _ _ => none
  | .orMR _ _ | .orMM _ _ | .orMI _ _ => none
  | .xorMR _ _ | .xorMM _ _ | .xorMI _ _ => none
  | .shlMR _ _ | .shlMM _ _ | .shlMI _ _ => none
  | .shrMR _ _ | .shrMM _ _ | .shrMI _ _ => none
  | .cmpRR _ _ | .cmpRM _ _ | .cmpMR _ _ | .cmpRI _ _ | .cmpMM _ _ | .cmpMI _ _ => none

/-- The banks a register code reaches (R22), named by their own codes 7..18: a half code its bank, a whole code `d ≤ 6`
the banks of codes `2d + 5` and `2d + 6`. -/
def ReachesBank (d q : RegCode) : Prop :=
  q = d ∨ (d.toNat ≤ 6 ∧ (q.toNat = 2 * d.toNat + 5 ∨ q.toNat = 2 * d.toNat + 6))

/-- Does the instruction resolve its operand in this state? A jump whose condition is false does not (R143). -/
def resolvesOperands (i : Instr) (s : State) : Bool :=
  match encode i with
  | op :: _ => if op = 0x18 then s.flags.ZF else if op = 0x19 then s.flags.CF else true
  | [] => true

/-- The part of the state a step reads (R35, R36, R38, R42, R112). IR, `running`, SF, OF, PF, IF and the history are
not in it. -/
def State.readByStep (s : State) : Banks × Banks × Bool × Bool × Bool × Pc × Memory × Config :=
  (s.hi, s.lo, s.flags.CF, s.flags.ZF, s.flags.MOP, s.pc, s.mem, s.cfg)

end Sys2Proof.Machine
end

