-- ==== Sys2Proof/Certificates/Slice0/Obligations.lean ====
section
/-! DEFINITION. The statements for the provers. Each formalises rules of the spec; the entry in OBLIGATIONS.json cites
them. The terms they use are in Safety.lean. -/

open Sys2Proof Sys2Proof.Machine

/-! ### Encoding -/

/-- Words written out from the tables of 30_encoding.md (R65 to R67, R70) decode to their instructions. -/
def Obligations.SpecWordsDecode : Prop :=
  decode [0x00, 0x5A] = .ok (.nop 0x5A, []) ∧
  decode [0x02, 0x03, 0x01] = .ok (.intI 0x01, []) ∧
  decode [0x10, 0x02, 0x41, 0x04] = .ok (.movMR 0x41 0x04, []) ∧
  decode [0x10, 0x04, 0x07] = .ok (.movMop 0x07, []) ∧
  decode [0x11, 0x05, 0x40, 0x41, 0xEE] = .ok (.addMM 0x40 0x41, [0xEE]) ∧
  decode [0x16, 0x01, 0x60] = .ok (.notM 0x60, []) ∧
  decode [0x16, 0x03, 0x05] = .error (.unknownAddressingMode 0x16 0x03) ∧
  decode [0x18, 0x03, 0x10] = .ok (.jzI 0x10, []) ∧
  decode [0x1C, 0x06, 0x70, 0x20] = .ok (.cmpMI 0x70 0x20, []) ∧
  decode [0x1D, 0x00] = .error (.unknownOpcode 0x1D)

/-- Decode and encode agree, in both directions, for every instruction with every operand byte and whatever bytes
follow: no bit of an encoding is dropped, and two byte sequences never stand for one instruction. -/
def Obligations.DecodeEncodeAgree : Prop :=
  (∀ (i : Instr) (rest : List Byte), decode (encode i ++ rest) = .ok (i, rest)) ∧
  (∀ (bs : List Byte) (i : Instr) (rest : List Byte), decode bs = .ok (i, rest) → bs = encode i ++ rest)

/-- R71: the length of an instruction is `len(op, ty)` of its first two bytes, and a rejected pair has length 2. -/
def Obligations.LengthFromHeader : Prop :=
  ∀ (op ty : Byte) (rest : List Byte),
    (∀ i rest', decode (op :: ty :: rest) = .ok (i, rest') → (encode i).length = instrLength op ty) ∧
    (∀ o, decode (op :: ty :: rest) = .error (.unknownOpcode o) → instrLength op ty = 2) ∧
    (∀ o t, decode (op :: ty :: rest) = .error (.unknownAddressingMode o t) → instrLength op ty = 2) ∧
    (decode (op :: ty :: rest) = .error .truncated → rest.length + 2 < instrLength op ty)

/-! ### Register file -/

/-- R22 and R24: a half code reads one bank, a whole code reads `(hi << 4) | lo` of its register, and any other code
reads 0 with the invalid-code signal. -/
def Obligations.RegisterReadPacksBanks : Prop :=
  ∀ s : State,
    (∀ (i : Nat) (r : Reg), [Reg.A, .B, .C, .D, .E, .G][i]? = some r →
      (s.readPort (BitVec.ofNat 8 (i + 1))).1.toNat = 16 * (s.hi.get r).toNat + (s.lo.get r).toNat ∧
      (s.readPort (BitVec.ofNat 8 (2 * i + 7))).1.toNat = (s.hi.get r).toNat ∧
      (s.readPort (BitVec.ofNat 8 (2 * i + 8))).1.toNat = (s.lo.get r).toNat) ∧
    (∀ c : RegCode, 1 ≤ c.toNat → c.toNat ≤ 18 → s.readPort c = (s.readReg c, false)) ∧
    (∀ c : RegCode, c.toNat = 0 ∨ 19 ≤ c.toNat → s.readPort c = (0, true) ∧ s.readReg c = 0)

/-- R25 and R27: a write through a code changes the banks the code reaches and nothing else, a read through the same
code gives the value cut to the view, and a write of an out-of-range code changes nothing. The port signals just the
codes out of range. -/
def Obligations.RegisterWriteThenRead : Prop :=
  ∀ (s : State) (c : RegCode) (v : Int),
    RegisterWritten c v s (s.writeReg c v) ∧
    (1 ≤ c.toNat → c.toNat ≤ 6 → (((s.writeReg c v).readReg c).toNat : Int) = v % 256) ∧
    (7 ≤ c.toNat → c.toNat ≤ 18 → (((s.writeReg c v).readReg c).toNat : Int) = v % 16) ∧
    (c.toNat = 0 ∨ 19 ≤ c.toNat → s.writeReg c v = s) ∧
    { s.writeReg c v with hi := s.hi, lo := s.lo } = s ∧
    s.writePort c v = (s.writeReg c v, decide (c.toNat = 0 ∨ 19 ≤ c.toNat))

/-! ### Flag Unit -/

/-- R113 to R120: the Flag Unit on every integer result and both widths, in numbers. -/
def Obligations.FlagUnitDerivesFlags : Prop :=
  ∀ (r : Int) (f : Flags), FlagsDerived r f (flagUnit r f.MOP f)

/-- R142: the results handed to the Flag Unit lie in the ranges the rule gives, so inside -256..32640. -/
def Obligations.ResultRanges : Prop :=
  ∀ a b : Nat, a ≤ 255 → b ≤ 255 →
    (0 ≤ addResult a b ∧ addResult a b ≤ 510) ∧
    (-255 ≤ subResult a b ∧ subResult a b ≤ 255) ∧
    (0 ≤ andResult a b ∧ andResult a b ≤ 255) ∧
    (0 ≤ orResult a b ∧ orResult a b ≤ 255) ∧
    (0 ≤ xorResult a b ∧ xorResult a b ≤ 255) ∧
    (-256 ≤ notResult .complementI32 a ∧ notResult .complementI32 a ≤ -1) ∧
    (0 ≤ notResult .zext8 a ∧ notResult .zext8 a ≤ 255) ∧
    (0 ≤ shlResult a b ∧ shlResult a b ≤ 32640) ∧
    (0 ≤ shrResult a b ∧ shrResult a b ≤ 255)

/-! ### The effect of each instruction -/

/-- R133, ADD in all six modes (addRR, addRM, addMR, addRI, addMM, addMI): `a + b`. With an invalid code under
`READ_ZERO`, that the history stays is the model's choice (notes/assumptions/5.md). -/
def Obligations.AddEffect : Prop := WritesResult 0x11 addOf fun a b => (a.toNat : Int) + b.toNat

/-- R134, SUB in all six modes (subRR, subRM, subMR, subRI, subMM, subMI): `a - b`. With an invalid code under
`READ_ZERO`, that the history stays is the model's choice (notes/assumptions/5.md). -/
def Obligations.SubEffect : Prop := WritesResult 0x12 subOf fun a b => (a.toNat : Int) - b.toNat

/-- R135, AND in all six modes (andRR, andRM, andMR, andRI, andMM, andMI): the bitwise and of the two bytes. With an
invalid code under `READ_ZERO`, that the history stays is the model's choice (notes/assumptions/5.md). -/
def Obligations.AndEffect : Prop := WritesResult 0x13 andOf fun a b => ((a &&& b).toNat : Int)

/-- R136, OR in all six modes (orRR, orRM, orMR, orRI, orMM, orMI): the bitwise or of the two bytes. With an invalid
code under `READ_ZERO`, that the history stays is the model's choice (notes/assumptions/5.md). -/
def Obligations.OrEffect : Prop := WritesResult 0x14 orOf fun a b => ((a ||| b).toNat : Int)

/-- R137, XOR in all six modes (xorRR, xorRM, xorMR, xorRI, xorMM, xorMI): the bitwise exclusive or of the two bytes.
With an invalid code under `READ_ZERO`, that the history stays is the model's choice (notes/assumptions/5.md). -/
def Obligations.XorEffect : Prop := WritesResult 0x15 xorOf fun a b => ((a ^^^ b).toNat : Int)

/-- R139, SHL in all six modes (shlRR, shlRM, shlMR, shlRI, shlMM, shlMI): `a * 2^(b mod 8)`, not cut before the Flag
Unit. With an invalid code under `READ_ZERO`, that the history stays is the model's choice (notes/assumptions/5.md). -/
def Obligations.ShlEffect : Prop := WritesResult 0x1A shlOf fun a b => (a.toNat : Int) * 2 ^ (b.toNat % 8)

/-- R140, SHR in all six modes (shrRR, shrRM, shrMR, shrRI, shrMM, shrMI): the quotient of `a` by `2^(b mod 8)`. With an
invalid code under `READ_ZERO`, that the history stays is the model's choice (notes/assumptions/5.md). -/
def Obligations.ShrEffect : Prop := WritesResult 0x1B shrOf fun a b => (a.toNat : Int) / 2 ^ (b.toNat % 8)

/-- R141, CMP in all six modes (cmpRR, cmpRM, cmpMR, cmpRI, cmpMM, cmpMI): the flags of `a - b`, the same as SUB's, and
nothing is written. Its bytes. With an invalid code under `READ_ZERO`, that the history stays is the model's choice
(notes/assumptions/5.md). -/
def Obligations.CmpEffect : Prop :=
  TwoOperandBytes 0x1C cmpOf ∧ ∀ (m : Mode2) (d b : Byte) (s : State), s.OperandReady m.dest d → s.OperandReady m.src b →
    ∃ t u, exec (cmpOf m d b) s = .next t ∧ exec (subOf m d b) s = .next u ∧ t.flags = u.flags ∧
      FlagsDerived (((s.operand m.dest d).toNat : Int) - (s.operand m.src b).toNat) s.flags t.flags ∧
      RegistersKept s t ∧ MemoryKept s t ∧ ControlKept s t

/-- R138, NOT on a register (notR) and on memory (notM): its bytes; the result is `-a - 1`, or `255 - a` under
`P_NOT_RESULT = ZEXT8`; it is written to the operand and the flags come from it. With an invalid code under `READ_ZERO`,
that the history stays is the model's choice (notes/assumptions/5.md). -/
def Obligations.NotEffect : Prop :=
  (∀ b : Byte, decode [0x16, 0x00, b] = .ok (.notR b, []) ∧ decode [0x16, 0x01, b] = .ok (.notM b, [])) ∧
  ∀ (b : Byte) (s : State) (i : Instr) (c : OpClass),
    (i = .notR b ∧ c = .R) ∨ (i = .notM b ∧ c = .M) →
    s.mem.wf = true → s.OperandReady c b →
      ∃ t, exec i s = .next t ∧ ControlKept s t ∧
        let a : Int := (s.operand c b).toNat
        let r : Int := if s.cfg.notResult = .zext8 then 255 - a else -a - 1
        DestWritten c b r s t ∧ FlagsDerived r s.flags t.flags

/-- R138: the value NOT writes, and ZF, SF and PF, are the same under both values of `P_NOT_RESULT`. -/
def Obligations.NotParameterOnlyMovesCarry : Prop :=
  ∀ (i : Instr) (b : Byte) (s : State), i = .notR b ∨ i = .notM b →
    ∃ t u, exec i { s with cfg := { s.cfg with notResult := .complementI32 } } = .next t ∧
      exec i { s with cfg := { s.cfg with notResult := .zext8 } } = .next u ∧
      t.hi = u.hi ∧ t.lo = u.lo ∧ t.mem = u.mem ∧
      t.flags.ZF = u.flags.ZF ∧ t.flags.SF = u.flags.SF ∧ t.flags.PF = u.flags.PF

/-- R129: the six MOV forms (movRR, movRM, movMR, movRI, movMM, movMI), their bytes and their effect. No flag changes.
With an invalid code under `READ_ZERO`, that the history stays is the model's choice (notes/assumptions/5.md). -/
def Obligations.MovEffect : Prop :=
  TwoOperandBytes 0x10 movOf ∧
  (∀ (m : Mode2) (d b : Byte) (s : State),
    s.mem.wf = true → s.OperandReady m.dest d → s.OperandReady m.src b →
      ∃ t, exec (movOf m d b) s = .next t ∧ DestWritten m.dest d ((s.operand m.src b).toNat : Int) s t ∧
        t.flags = s.flags ∧ ControlKept s t)

/-- R130, `MOV MOP, #k` (movMop): its bytes, and `MOP <- (k != 0)` with nothing else changed. It has no error. -/
def Obligations.MovMopEffect : Prop :=
  ∀ (k : Imm) (rest : List Byte) (s : State),
    decode (0x10 :: 0x04 :: k :: rest) = .ok (.movMop k, rest) ∧
    exec (.movMop k) s = .next { s with flags := { s.flags with MOP := decide (k.toNat ≠ 0) } }

/-- R143, R144, JMP in its three modes (jmpR, jmpM, jmpI): it is always taken. Through an invalid code under
`READ_ZERO`, that no event is sent is the model's choice (notes/assumptions/5.md). -/
def Obligations.JmpEffect : Prop := Jumps 0x17 jmpOf fun _ => True

/-- R143, R145, JZ in its three modes (jzR, jzM, jzI): the condition is ZF. Taken through an invalid code under
`READ_ZERO`, that no event is sent is the model's choice (notes/assumptions/5.md). -/
def Obligations.JzEffect : Prop := Jumps 0x18 jzOf fun s => s.flags.ZF = true

/-- R143, R146, JC in its three modes (jcR, jcM, jcI): the condition is CF. Taken through an invalid code under
`READ_ZERO`, that no event is sent is the model's choice (notes/assumptions/5.md). -/
def Obligations.JcEffect : Prop := Jumps 0x19 jcOf fun s => s.flags.CF = true

/-- R125 and R126, INT in its three modes (intR, intM, intI): its bytes; the event each number gives, with the value of
AX; nothing else changes. With an invalid code under `READ_ZERO` the number is 0; that `on_interrupt` alone is sent
there, and no error event, is the model's choice (notes/assumptions/5.md), in keeping with R161. -/
def Obligations.IntEffect : Prop :=
  OneOperandBytes 0x02 intOf ∧ ∀ (m : Mode1) (b : Byte) (s : State), s.OperandReady m.cls b →
    let n := s.operand m.cls b
    (n.toNat = 0 → exec (intOf m b) s = .next { s with log := .interrupt 0 (s.readReg 0x01) :: s.log }) ∧
    (n.toNat = 1 → exec (intOf m b) s = .next { s with log := .interrupt 1 (s.readReg 0x01) :: s.log }) ∧
    (2 ≤ n.toNat → exec (intOf m b) s = .next { s with log := .error (.unknownInterrupt n) :: s.log })

/-- R123 and R124, NOP and HLT with every type byte (nop, hlt), as meanings and as whole steps. -/
def Obligations.NopHltEffect : Prop :=
  ∀ (ty : Byte) (s : State),
    exec (.nop ty) s = .next s ∧
    exec (.hlt ty) s = .next { s with running := false, log := .halted .halt :: s.log } ∧
    (s.pc.toNat ≤ 254 → s.mem.read s.pc.toNat = 0x00 → step s = .next (s.fetched 2).notify) ∧
    (s.pc.toNat ≤ 254 → s.mem.read s.pc.toNat = 0x01 → step s = .next ((s.fetched 2).halt .halt).notify)

/-- R100 and R106: under `ABANDON`, an instruction that resolves its operands and names an invalid register code ends
with `UnknownRegister` of the first such code, dest first, and changes nothing else. -/
def Obligations.InvalidRegisterAbandons : Prop :=
  ∀ (i : Instr) (s : State) (c : RegCode),
    s.cfg.badReg = .abandon → resolvesOperands i s = true →
    (registerOperands i).find? (fun x => decide (x.toNat = 0 ∨ 19 ≤ x.toNat)) = some c →
      exec i s = .next { s with log := .error (.unknownRegister c) :: s.log }

/-- R68, R126, R178: a well-formed instruction completes in every state, and the only error it can raise is INT's
`UnknownInterrupt`, of its operand's value, when that is 2 or more. -/
def Obligations.WellFormedRaisesNoError : Prop :=
  ∀ (i : Instr) (s : State), WellFormed i = true →
    ∃ t, exec i s = .next t ∧
      ((∃ (m : Mode1) (b : Byte), i = intOf m b ∧ 2 ≤ (s.operand m.cls b).toNat ∧
          t.log = .error (.unknownInterrupt (s.operand m.cls b)) :: s.log) ∨
        errorsIn t.log = errorsIn s.log)

/-! ### The step -/

/-- R94, R96, R99: when the bytes from `pc` decode to an instruction, the step runs that instruction in the state after
its bytes were fetched and IR latched, and then notifies the port. -/
def Obligations.StepRunsDecodedInstruction : Prop :=
  ∀ (s : State) (i : Instr) (rest : List Byte), decode s.bytesFromPc = .ok (i, rest) →
    step s = thenNotify (exec i (s.fetched (encode i).length))

/-- R94, R151: a step that begins at `pc >= 256` halts with EndOfMemory and does nothing else. -/
def Obligations.EndOfMemoryHalts : Prop :=
  ∀ s : State, 256 ≤ s.pc.toNat →
    step s = .next (State.notify { s with running := false, log := .halted .endOfMemory :: s.log })

/-- R95, R96, R150: an instruction whose bytes run past address 255 is fatal: `pc` is 256, the engine halts, IR is
latched only if the type byte was fetched, and no register, flag or byte of memory changes. -/
def Obligations.FetchPastEndIsFatal : Prop :=
  ∀ s : State, s.pc.toNat < 256 → decode s.bytesFromPc = .error .truncated →
    step s = .next (State.notify { s with
      pc := 256
      ir := if s.pc.toNat = 255 then s.ir
        else { op := s.mem.read s.pc.toNat, type := s.mem.read (s.pc.toNat + 1) }
      running := false
      log := .error (.uncaughtExecutionFault (.fetchOutOfBounds 256)) :: s.log })

/-- R72, R97: an opcode byte in 0x03..0x0F or 0x1D..0xFF consumes two bytes, latches IR, raises UnknownOpcode and
changes nothing else. -/
def Obligations.UndefinedOpcodeIsDropped : Prop :=
  ∀ s : State, s.pc.toNat ≤ 254 →
    let op := s.mem.read s.pc.toNat
    (3 ≤ op.toNat ∧ op.toNat ≤ 15) ∨ 29 ≤ op.toNat →
      step s = .next (State.notify { s.fetched 2 with log := .error (.unknownOpcode op) :: s.log })

/-- R65 to R67, R73, R98: a type byte the opcode does not accept consumes two bytes, latches IR, raises
UnknownAddressingMode and changes nothing else. -/
def Obligations.UnacceptedModeIsDropped : Prop :=
  ∀ s : State, s.pc.toNat ≤ 254 →
    let op := s.mem.read s.pc.toNat
    let ty := s.mem.read (s.pc.toNat + 1)
    (op.toNat ∈ [0x02, 0x17, 0x18, 0x19] ∧ (ty.toNat = 2 ∨ 4 ≤ ty.toNat)) ∨
      (op.toNat = 0x10 ∧ 7 ≤ ty.toNat) ∨
      (op.toNat ∈ [0x11, 0x12, 0x13, 0x14, 0x15, 0x1A, 0x1B, 0x1C] ∧ (ty.toNat = 4 ∨ 7 ≤ ty.toNat)) ∨
      (op.toNat = 0x16 ∧ 2 ≤ ty.toNat) →
      step s = .next (State.notify { s.fetched 2 with log := .error (.unknownAddressingMode op ty) :: s.log })

/-- R147, R156: no step traps. Every step of every state ends in a next state, and the parameters stay (R8). -/
def Obligations.EveryStepCompletes : Prop := ∀ s : State, ∃ t, step s = .next t ∧ t.cfg = s.cfg

/-- R109, R154, R161: a step adds to the history at most one event, an interrupt, error or halt event, and then
`on_state_changed` with the post-step state. Nothing is taken from the history (R152). -/
def Obligations.StepEventsInOrder : Prop :=
  ∀ s t : State, step s = .next t →
    ∃ ev : List Event, t.log = t.snapshot :: (ev ++ s.log) ∧ ev.length ≤ 1 ∧ ∀ x, .stateChanged x ∉ ev

/-- R110: `pc` after a step. -/
def Obligations.PcAfterStep : Prop :=
  ∀ s t : State, step s = .next t →
    (256 ≤ s.pc.toNat → t.pc = s.pc) ∧
    (s.pc.toNat < 256 → t.pc.toNat =
      match decode s.bytesFromPc with
      | .ok (i, _) => (jumpTarget i s).getD (s.pc.toNat + (encode i).length)
      | .error .truncated => 256
      | .error (.unknownOpcode _) => s.pc.toNat + 2
      | .error (.unknownAddressingMode _ _) => s.pc.toNat + 2)

/-- R149: after a recoverable error the registers, the flags, memory and `running` are as before, `pc` is past the bytes
fetched, and IR holds the header. -/
def Obligations.RecoverableErrorAbandons : Prop :=
  ∀ (s t : State) (e : RuntimeError), step s = .next t → t.log = t.snapshot :: .error e :: s.log → e.fatal = false →
    t.hi = s.hi ∧ t.lo = s.lo ∧ t.flags = s.flags ∧ t.mem = s.mem ∧ t.running = s.running ∧
    t.ir = { op := s.mem.read s.pc.toNat, type := s.mem.read (s.pc.toNat + 1) } ∧
    t.pc.toNat = s.pc.toNat + instrLength t.ir.op t.ir.type

/-- R40, R174: a step never sets `running`, and it clears it exactly when its event is a halt or a fatal error. -/
def Obligations.RunningClearedOnlyByHalts : Prop :=
  ∀ s t : State, step s = .next t →
    ∃ ev : List Event, t.log = t.snapshot :: (ev ++ s.log) ∧ t.running = (s.running && !ev.any Event.halts)

/-! ### Whole-machine rules -/

/-- Every step keeps the invariant, from every state that has it: memory in canonical form, `pc` in 0..256 (R31), IF 0
(R37), OF equal to CF (R35). -/
def Obligations.StepKeepsInvariant : Prop := ∀ s t : State, s.Inv → step s = .next t → t.Inv

/-- The reset state has the invariant (R43). -/
def Obligations.ResetHasInvariant : Prop := State.reset.Inv

/-- Every action of the host keeps the invariant and the parameters, and takes nothing from the history (R175, R152). -/
def Obligations.HostActionsKeepInvariant : Prop :=
  ∀ (a : HostAction) (s : State), s.Inv →
    ∃ t, hostAct a s = .next t ∧ t.Inv ∧ t.cfg = s.cfg ∧ ∃ ev : List Event, t.log = ev ++ s.log

/-- R37, R38: no instruction writes IF, and the only instruction that changes MOP is `MOV MOP, #k`. -/
def Obligations.MopWrittenOnlyByMovMop : Prop :=
  ∀ (i : Instr) (s t : State), exec i s = .next t →
    t.flags.IF = s.flags.IF ∧ (t.flags.MOP ≠ s.flags.MOP → ∃ k, i = .movMop k)

/-- R121: CF, ZF, SF, OF and PF are written by ADD, SUB, AND, OR, XOR, NOT, SHL, SHR and CMP when they complete, by the
Flag Unit, and by nothing else. An abandoned instruction writes no flag. The history tells which it was: unchanged, the
instruction completed. With an invalid code under `READ_ZERO` that is the model's choice (notes/assumptions/5.md). -/
def Obligations.StatusFlagsWrittenByNine : Prop :=
  ∀ (i : Instr) (s t : State), exec i s = .next t →
    (runsFlagUnit i = true → t.log = s.log → ∃ r : Int, FlagsDerived r s.flags t.flags) ∧
    (runsFlagUnit i = true → t.log ≠ s.log → t.flags = s.flags) ∧
    (runsFlagUnit i = false →
      t.flags.CF = s.flags.CF ∧ t.flags.ZF = s.flags.ZF ∧ t.flags.SF = s.flags.SF ∧ t.flags.OF = s.flags.OF ∧
        t.flags.PF = s.flags.PF)

/-- R105: an instruction writes at most one destination: a register view, a memory cell, MOP or `pc`. In the register
file it changes at most the banks its dest code reaches, and a form with no register dest leaves every register; in
memory it changes at most the byte its dest operand names, and a form with no memory dest leaves all of it (R103). IR,
which the step latches, is not written by any instruction (R33). -/
def Obligations.OneDestinationPerInstruction : Prop :=
  ∀ (i : Instr) (s t : State), s.mem.wf = true → exec i s = .next t →
    t.ir = s.ir ∧
    ((t.hi ≠ s.hi ∨ t.lo ≠ s.lo) → t.mem = s.mem ∧ t.pc = s.pc ∧ t.flags.MOP = s.flags.MOP) ∧
    (t.mem ≠ s.mem → t.hi = s.hi ∧ t.lo = s.lo ∧ t.pc = s.pc ∧ t.flags.MOP = s.flags.MOP) ∧
    (t.pc ≠ s.pc → t.hi = s.hi ∧ t.lo = s.lo ∧ t.mem = s.mem ∧ t.flags = s.flags) ∧
    (∀ a : Addr, storedTo i = some a → ∀ x : Nat, x ≠ a.toNat → t.mem.read x = s.mem.read x) ∧
    (storedTo i = none → MemoryKept s t) ∧
    (∀ d : RegCode, registerWrittenBy i = some d →
      ∀ q : RegCode, 7 ≤ q.toNat → q.toNat ≤ 18 → ¬ ReachesBank d q → t.readReg q = s.readReg q) ∧
    (registerWrittenBy i = none → RegistersKept s t)

/-- R42, R112, R37, R46: a step reads only the banks, CF, ZF, MOP, `pc`, memory and the parameters. From two states that
agree on those, whatever IR, `running`, SF, OF, PF, IF and the history are, the next states agree on them too, and the
steps send the same event. -/
def Obligations.StepIgnoresHiddenState : Prop :=
  ∀ s u s' u' : State, s.readByStep = u.readByStep → step s = .next s' → step u = .next u' →
    s'.readByStep = u'.readByStep ∧
    ∃ ev : List Event, s'.log = s'.snapshot :: (ev ++ s.log) ∧ u'.log = u'.snapshot :: (ev ++ u.log)

/-- R29, R179: MOP changes only the flags. An instruction run under either value of MOP leaves the same registers,
memory and `pc` and sends the same events. -/
def Obligations.StoredValuesIgnoreMop : Prop :=
  ∀ (i : Instr) (s : State) (b : Bool),
    ∃ t u, exec i s = .next t ∧ exec i { s with flags := { s.flags with MOP := b } } = .next u ∧
      t.hi = u.hi ∧ t.lo = u.lo ∧ t.mem = u.mem ∧ t.pc = u.pc ∧ t.log = u.log

/-! ### Reset and run control -/

/-- R43, R166: the reset state, and the state a host reset leaves from any state. The parameters and the history are the
model's own fields and are not the block's state (notes/assumptions/1.md and 2.md). -/
def Obligations.ResetState : Prop :=
  ∀ s t : State, t = State.reset ∨ t = s.hostReset →
    (∀ c : RegCode, t.readReg c = 0) ∧ (∀ a : Nat, t.mem.read a = 0) ∧
    t.flags.CF = false ∧ t.flags.ZF = false ∧ t.flags.SF = false ∧ t.flags.OF = false ∧ t.flags.PF = false ∧
    t.flags.IF = false ∧ t.flags.MOP = true ∧
    t.pc = 0 ∧ t.ir.op = 0 ∧ t.ir.type = 0 ∧ t.running = false

/-- R169: run from reset memory, the engine executes NOP at 0, 2, ..., 254 in 128 steps, with no error, and the 129th
step stops it with EndOfMemory at `pc = 256`; later ticks of the run do nothing. -/
def Obligations.ResetMemoryRunsNops : Prop :=
  (∀ n : Nat, n ≤ 128 → ∃ t, run n State.reset = .next t ∧
    t.pc.toNat = 2 * n ∧ t.running = true ∧ t.ErrorFree ∧
    t.hi = State.reset.hi ∧ t.lo = State.reset.lo ∧ t.flags = State.reset.flags ∧ t.mem = State.reset.mem) ∧
  (∀ n : Nat, 129 ≤ n → ∃ t rest, run n State.reset = .next t ∧
    t.pc.toNat = 256 ∧ t.running = false ∧ t.log = t.snapshot :: .halted .endOfMemory :: rest)

/-- R173: `stop()` clears `running`, emits the halt reason Stop and changes nothing else; a run in progress executes no
further step after it; and a second `stop()` leaves the block's state as the first did. That every `stop()` emits the
event, the second too, is the model's choice (notes/assumptions/16.md). -/
def Obligations.StopEndsTheRun : Prop :=
  ∀ s : State,
    s.stop = { s with running := false, log := .halted .stop :: s.log } ∧
    (∀ n : Nat, runTicks n s.stop = .next s.stop) ∧
    { s.stop.stop with log := s.stop.log } = s.stop

/-- R172: `run()` sets `running`, changing nothing else, and then calls the step once a tick until `running` is 0: with
any number of ticks it reaches a state, and one tick more steps that state if `running` is 1 and leaves it otherwise. -/
def Obligations.RunStepsUntilHalted : Prop :=
  ∀ s : State,
    run 0 s = .next { s with running := true } ∧
    ∀ n : Nat, ∃ u, run n s = .next u ∧
      (u.running = true → run (n + 1) s = step u) ∧ (u.running = false → run (n + 1) s = .next u)

/-- R62, R170, R175: before a run, a load writes the image to `mem[0..n-1]` and leaves every other cell and all other
state. That a load during a run writes nothing, and that an image longer than memory is refused before any byte is
written (R92), are the model's readings (notes/assumptions/8.md). -/
def Obligations.LoadWritesImage : Prop :=
  ∀ (s : State) (image : List Byte), s.mem.wf = true →
    (s.running = false → image.length ≤ 256 → ∀ x : Nat, (s.load image).mem.read x = (image[x]?).getD (s.mem.read x)) ∧
    (s.running = true → s.load image = s) ∧
    (256 < image.length → s.load image = s) ∧
    { s.load image with mem := s.mem } = s

/-! ### Assembler -/

/-- R85, R89: the length of an encoded line does not depend on the label table, so pass 1 and pass 2 agree on it. -/
def Obligations.EncodedLengthIsPassInvariant : Prop :=
  ∀ (labels : LabelTable) (ts : List Text) (b b' : List Byte),
    encodeTokens none ts = .ok b → encodeTokens (some labels) ts = .ok b' → b.length = b'.length

/-- R89: two-pass assembly is address-stable. When both passes succeed, the image of pass 2 ends at the address pass 1
gave, and each label's address from pass 1 is the address the image has reached at the line that defines it. -/
def Obligations.AssemblyIsAddressStable : Prop :=
  ∀ (lines : List Text) (labels : LabelTable) (total : Nat),
    passOne lines 0 [] = .ok (labels, total) → (passTwo labels lines).2 = none →
      (passTwo labels lines).1.length = total ∧
      ∀ (k : Nat) (line name : Text) (ts : List Text),
        lines[k]? = some line → parseLine line = .ok (some name, ts) →
          labels.find name = some (passTwo labels (lines.take k)).1.length

/-- R67, R83, R84, 90_conflicts.md C4: what the assembler emits for a line decodes to a well-formed instruction that
takes all its bytes; the one exception is `NOT #imm`, whose header the decoder rejects. -/
def Obligations.AssembledLineDecodes : Prop :=
  ∀ (labels : Option LabelTable) (ts : List Text) (b : List Byte),
    encodeTokens labels ts = .ok b → b ≠ [] →
      (∃ i, decode b = .ok (i, []) ∧ WellFormed i = true) ∨
      (∃ k, b = [0x16, 0x03, k] ∧ decode b = .error (.unknownAddressingMode 0x16 0x03))
end

