-- ==== Sys2Proof/Laws/State.lean ====
section
/-! SUPPORT. What each update of the state does to each field. -/

namespace Sys2Proof.Machine

/-! `emit` -/
@[simp] theorem emit_hi (s : State) (e : Event) : (s.emit e).hi = s.hi := rfl
@[simp] theorem emit_lo (s : State) (e : Event) : (s.emit e).lo = s.lo := rfl
@[simp] theorem emit_flags (s : State) (e : Event) : (s.emit e).flags = s.flags := rfl
@[simp] theorem emit_pc (s : State) (e : Event) : (s.emit e).pc = s.pc := rfl
@[simp] theorem emit_ir (s : State) (e : Event) : (s.emit e).ir = s.ir := rfl
@[simp] theorem emit_running (s : State) (e : Event) : (s.emit e).running = s.running := rfl
@[simp] theorem emit_mem (s : State) (e : Event) : (s.emit e).mem = s.mem := rfl
@[simp] theorem emit_cfg (s : State) (e : Event) : (s.emit e).cfg = s.cfg := rfl
@[simp] theorem emit_log (s : State) (e : Event) : (s.emit e).log = e :: s.log := rfl

/-! `halt` -/
@[simp] theorem halt_hi (s : State) (r : HaltReason) : (s.halt r).hi = s.hi := rfl
@[simp] theorem halt_lo (s : State) (r : HaltReason) : (s.halt r).lo = s.lo := rfl
@[simp] theorem halt_flags (s : State) (r : HaltReason) : (s.halt r).flags = s.flags := rfl
@[simp] theorem halt_pc (s : State) (r : HaltReason) : (s.halt r).pc = s.pc := rfl
@[simp] theorem halt_ir (s : State) (r : HaltReason) : (s.halt r).ir = s.ir := rfl
@[simp] theorem halt_running (s : State) (r : HaltReason) : (s.halt r).running = false := rfl
@[simp] theorem halt_mem (s : State) (r : HaltReason) : (s.halt r).mem = s.mem := rfl
@[simp] theorem halt_cfg (s : State) (r : HaltReason) : (s.halt r).cfg = s.cfg := rfl
@[simp] theorem halt_log (s : State) (r : HaltReason) : (s.halt r).log = .halted r :: s.log := rfl

/-! `notify` -/
@[simp] theorem notify_hi (s : State) : (s.notify).hi = s.hi := rfl
@[simp] theorem notify_lo (s : State) : (s.notify).lo = s.lo := rfl
@[simp] theorem notify_flags (s : State) : (s.notify).flags = s.flags := rfl
@[simp] theorem notify_pc (s : State) : (s.notify).pc = s.pc := rfl
@[simp] theorem notify_ir (s : State) : (s.notify).ir = s.ir := rfl
@[simp] theorem notify_running (s : State) : (s.notify).running = s.running := rfl
@[simp] theorem notify_mem (s : State) : (s.notify).mem = s.mem := rfl
@[simp] theorem notify_cfg (s : State) : (s.notify).cfg = s.cfg := rfl
@[simp] theorem notify_log (s : State) : (s.notify).log = .stateChanged { hi := s.hi, lo := s.lo, flags := s.flags, mem := s.mem, pc := s.pc } :: s.log := rfl

/-! `latch` -/
@[simp] theorem latch_hi (s : State) (op ty : Byte) : (s.latch op ty).hi = s.hi := rfl
@[simp] theorem latch_lo (s : State) (op ty : Byte) : (s.latch op ty).lo = s.lo := rfl
@[simp] theorem latch_flags (s : State) (op ty : Byte) : (s.latch op ty).flags = s.flags := rfl
@[simp] theorem latch_pc (s : State) (op ty : Byte) : (s.latch op ty).pc = s.pc := rfl
@[simp] theorem latch_ir (s : State) (op ty : Byte) : (s.latch op ty).ir = { op := op, type := ty } := rfl
@[simp] theorem latch_running (s : State) (op ty : Byte) : (s.latch op ty).running = s.running := rfl
@[simp] theorem latch_mem (s : State) (op ty : Byte) : (s.latch op ty).mem = s.mem := rfl
@[simp] theorem latch_cfg (s : State) (op ty : Byte) : (s.latch op ty).cfg = s.cfg := rfl
@[simp] theorem latch_log (s : State) (op ty : Byte) : (s.latch op ty).log = s.log := rfl

/-! `memWrite` -/
@[simp] theorem memWrite_hi (s : State) (a : Addr) (v : Int) : (s.memWrite a v).hi = s.hi := rfl
@[simp] theorem memWrite_lo (s : State) (a : Addr) (v : Int) : (s.memWrite a v).lo = s.lo := rfl
@[simp] theorem memWrite_flags (s : State) (a : Addr) (v : Int) : (s.memWrite a v).flags = s.flags := rfl
@[simp] theorem memWrite_pc (s : State) (a : Addr) (v : Int) : (s.memWrite a v).pc = s.pc := rfl
@[simp] theorem memWrite_ir (s : State) (a : Addr) (v : Int) : (s.memWrite a v).ir = s.ir := rfl
@[simp] theorem memWrite_running (s : State) (a : Addr) (v : Int) : (s.memWrite a v).running = s.running := rfl
@[simp] theorem memWrite_mem (s : State) (a : Addr) (v : Int) : (s.memWrite a v).mem = s.mem.write a.toNat (BitVec.ofInt 8 v) := rfl
@[simp] theorem memWrite_cfg (s : State) (a : Addr) (v : Int) : (s.memWrite a v).cfg = s.cfg := rfl
@[simp] theorem memWrite_log (s : State) (a : Addr) (v : Int) : (s.memWrite a v).log = s.log := rfl

/-! `updateFlags` -/
@[simp] theorem updateFlags_hi (s : State) (r : Int) : (s.updateFlags r).hi = s.hi := rfl
@[simp] theorem updateFlags_lo (s : State) (r : Int) : (s.updateFlags r).lo = s.lo := rfl
@[simp] theorem updateFlags_flags (s : State) (r : Int) : (s.updateFlags r).flags = flagUnit r s.flags.MOP s.flags := rfl
@[simp] theorem updateFlags_pc (s : State) (r : Int) : (s.updateFlags r).pc = s.pc := rfl
@[simp] theorem updateFlags_ir (s : State) (r : Int) : (s.updateFlags r).ir = s.ir := rfl
@[simp] theorem updateFlags_running (s : State) (r : Int) : (s.updateFlags r).running = s.running := rfl
@[simp] theorem updateFlags_mem (s : State) (r : Int) : (s.updateFlags r).mem = s.mem := rfl
@[simp] theorem updateFlags_cfg (s : State) (r : Int) : (s.updateFlags r).cfg = s.cfg := rfl
@[simp] theorem updateFlags_log (s : State) (r : Int) : (s.updateFlags r).log = s.log := rfl

/-! `raise`: only the history and, for a fatal error, `running` -/
@[simp] theorem raise_hi (s : State) (e : RuntimeError) : (s.raise e).hi = s.hi := by cases e <;> rfl
@[simp] theorem raise_lo (s : State) (e : RuntimeError) : (s.raise e).lo = s.lo := by cases e <;> rfl
@[simp] theorem raise_flags (s : State) (e : RuntimeError) : (s.raise e).flags = s.flags := by cases e <;> rfl
@[simp] theorem raise_pc (s : State) (e : RuntimeError) : (s.raise e).pc = s.pc := by cases e <;> rfl
@[simp] theorem raise_ir (s : State) (e : RuntimeError) : (s.raise e).ir = s.ir := by cases e <;> rfl
@[simp] theorem raise_running (s : State) (e : RuntimeError) : (s.raise e).running = (s.running && !e.fatal) := by
  cases e <;> simp [State.raise, RuntimeError.fatal]
@[simp] theorem raise_mem (s : State) (e : RuntimeError) : (s.raise e).mem = s.mem := by cases e <;> rfl
@[simp] theorem raise_cfg (s : State) (e : RuntimeError) : (s.raise e).cfg = s.cfg := by cases e <;> rfl
@[simp] theorem raise_log (s : State) (e : RuntimeError) : (s.raise e).log = .error e :: s.log := by cases e <;> rfl

/-! `writeReg`: only the banks -/
@[simp] theorem writeReg_flags (s : State) (c : RegCode) (v : Int) : (s.writeReg c v).flags = s.flags := by
  unfold State.writeReg State.writeView; split <;> [split; skip] <;> rfl
@[simp] theorem writeReg_pc (s : State) (c : RegCode) (v : Int) : (s.writeReg c v).pc = s.pc := by
  unfold State.writeReg State.writeView; split <;> [split; skip] <;> rfl
@[simp] theorem writeReg_ir (s : State) (c : RegCode) (v : Int) : (s.writeReg c v).ir = s.ir := by
  unfold State.writeReg State.writeView; split <;> [split; skip] <;> rfl
@[simp] theorem writeReg_running (s : State) (c : RegCode) (v : Int) : (s.writeReg c v).running = s.running := by
  unfold State.writeReg State.writeView; split <;> [split; skip] <;> rfl
@[simp] theorem writeReg_mem (s : State) (c : RegCode) (v : Int) : (s.writeReg c v).mem = s.mem := by
  unfold State.writeReg State.writeView; split <;> [split; skip] <;> rfl
@[simp] theorem writeReg_cfg (s : State) (c : RegCode) (v : Int) : (s.writeReg c v).cfg = s.cfg := by
  unfold State.writeReg State.writeView; split <;> [split; skip] <;> rfl
@[simp] theorem writeReg_log (s : State) (c : RegCode) (v : Int) : (s.writeReg c v).log = s.log := by
  unfold State.writeReg State.writeView; split <;> [split; skip] <;> rfl

/-! `startRun` and `stop` -/
@[simp] theorem startRun_hi (s : State) : (s.startRun).hi = s.hi := rfl
@[simp] theorem startRun_lo (s : State) : (s.startRun).lo = s.lo := rfl
@[simp] theorem startRun_flags (s : State) : (s.startRun).flags = s.flags := rfl
@[simp] theorem startRun_pc (s : State) : (s.startRun).pc = s.pc := rfl
@[simp] theorem startRun_ir (s : State) : (s.startRun).ir = s.ir := rfl
@[simp] theorem startRun_running (s : State) : (s.startRun).running = true := rfl
@[simp] theorem startRun_mem (s : State) : (s.startRun).mem = s.mem := rfl
@[simp] theorem startRun_cfg (s : State) : (s.startRun).cfg = s.cfg := rfl
@[simp] theorem startRun_log (s : State) : (s.startRun).log = s.log := rfl
@[simp] theorem stop_hi (s : State) : (s.stop).hi = s.hi := rfl
@[simp] theorem stop_lo (s : State) : (s.stop).lo = s.lo := rfl
@[simp] theorem stop_flags (s : State) : (s.stop).flags = s.flags := rfl
@[simp] theorem stop_pc (s : State) : (s.stop).pc = s.pc := rfl
@[simp] theorem stop_ir (s : State) : (s.stop).ir = s.ir := rfl
@[simp] theorem stop_running (s : State) : (s.stop).running = false := rfl
@[simp] theorem stop_mem (s : State) : (s.stop).mem = s.mem := rfl
@[simp] theorem stop_cfg (s : State) : (s.stop).cfg = s.cfg := rfl
@[simp] theorem stop_log (s : State) : (s.stop).log = .halted .stop :: s.log := rfl

@[simp] theorem thenNotify_next (s : State) : thenNotify (.next s) = .next s.notify := rfl

end Sys2Proof.Machine
end

