-- ==== Sys2Proof/Laws/Decode.lean ====
section
/-! SUPPORT. The decoder's header: the one lemma about `decodeHeader` that its users cite. -/

namespace Sys2Proof

/-- The type byte of a two-operand mode (R65). -/
def Mode2.typeByte : Mode2 → Byte
  | .rr => 0x00
  | .rm => 0x01
  | .mr => 0x02
  | .ri => 0x03
  | .mm => 0x05
  | .mi => 0x06

/-- The type byte of a single-operand mode (R67). -/
def Mode1.typeByte : Mode1 → Byte
  | .reg => 0x00
  | .mem => 0x01
  | .imm => 0x03

theorem Mode2.typeByte_of_ofType {ty : Byte} {m : Mode2} (h : Mode2.ofType ty = some m) : ty = m.typeByte := by
  revert ty; cases m <;> decide

theorem Mode1.typeByte_of_ofType {ty : Byte} {m : Mode1} (h : Mode1.ofType ty = some m) : ty = m.typeByte := by
  revert ty; cases m <;> decide

theorem Mode2.ofType_none {ty : Byte} (h : Mode2.ofType ty = none) : ty.toNat ∉ [0, 1, 2, 3, 5, 6] := by
  revert ty; decide

theorem Mode1.ofType_none {ty : Byte} (h : Mode1.ofType ty = none) : ty.toNat ∉ [0, 1, 3] := by
  revert ty; decide

/-- What a header says about the instructions it makes: their bytes start with the header, and their length is
`len(op, ty)` (R63, R71). A rejected header has length 2. -/
inductive HeaderLaw (op ty : Byte) : Header → Prop where
  | zero (i : Instr) (he : encode i = [op, ty]) (hl : instrLength op ty = 2) : HeaderLaw op ty (.zero i)
  | one (mk : Byte → Instr) (he : ∀ b, encode (mk b) = [op, ty, b]) (hl : instrLength op ty = 3) :
      HeaderLaw op ty (.one mk)
  | two (mk : Byte → Byte → Instr) (he : ∀ d b, encode (mk d b) = [op, ty, d, b]) (hl : instrLength op ty = 4) :
      HeaderLaw op ty (.two mk)
  | badOpcode (hl : instrLength op ty = 2) : HeaderLaw op ty (.badOpcode op)
  | badMode (hl : instrLength op ty = 2) : HeaderLaw op ty (.badMode op ty)

theorem headerTwo_law {op ty : Byte} {mk : Mode2 → Byte → Byte → Instr}
    (hmk : ∀ m d b, encode (mk m d b) = [op, m.typeByte, d, b])
    (hop : op.toNat ∈ [0x10, 0x11, 0x12, 0x13, 0x14, 0x15, 0x1A, 0x1B, 0x1C]) (h4 : op.toNat = 0x10 → ty.toNat ≠ 4) :
    HeaderLaw op ty (headerTwo op ty mk) := by
  simp only [List.mem_cons, List.not_mem_nil, or_false] at hop
  unfold headerTwo
  split
  · next m h =>
    have := Mode2.typeByte_of_ofType h
    subst this
    refine .two _ (hmk m) ?_
    rcases hop with ho | ho | ho | ho | ho | ho | ho | ho | ho <;> cases m <;> simp [instrLength, ho, Mode2.typeByte]
  · next h =>
    have := Mode2.ofType_none h
    refine .badMode ?_
    rcases hop with ho | ho | ho | ho | ho | ho | ho | ho | ho <;> simp_all [instrLength]

theorem headerOne_law {op ty : Byte} {mk : Mode1 → Byte → Instr}
    (hmk : ∀ m b, encode (mk m b) = [op, m.typeByte, b]) (hop : op.toNat ∈ [0x02, 0x17, 0x18, 0x19]) :
    HeaderLaw op ty (headerOne op ty mk) := by
  simp only [List.mem_cons, List.not_mem_nil, or_false] at hop
  unfold headerOne
  split
  · next m h =>
    have := Mode1.typeByte_of_ofType h
    subst this
    refine .one _ (hmk m) ?_
    rcases hop with ho | ho | ho | ho <;> cases m <;> simp [instrLength, ho, Mode1.typeByte]
  · next h =>
    have := Mode1.ofType_none h
    refine .badMode ?_
    rcases hop with ho | ho | ho | ho <;> simp_all [instrLength]

theorem headerNot_law {op ty : Byte} (ho : op = 0x16) : HeaderLaw op ty (headerNot op ty) := by
  subst ho
  unfold headerNot
  split
  · next h => have := Mode1.typeByte_of_ofType h; subst this; exact .one _ (fun _ => rfl) rfl
  · next h => have := Mode1.typeByte_of_ofType h; subst this; exact .one _ (fun _ => rfl) rfl
  · next h => have := Mode1.typeByte_of_ofType h; subst this; exact .badMode rfl
  · next h => have := Mode1.ofType_none h; exact .badMode (by simp_all [instrLength])

theorem headerMov_law {op ty : Byte} (ho : op = 0x10) : HeaderLaw op ty (headerMov op ty) := by
  subst ho
  unfold headerMov
  split
  · next h =>
    have : ty = 0x04 := BitVec.eq_of_toNat_eq h
    subst this
    exact .one _ (fun _ => rfl) rfl
  · next h => exact headerTwo_law (by intro m; cases m <;> intros <;> rfl) (by decide) (fun _ => h)

theorem decodeHeader_law (op ty : Byte) : HeaderLaw op ty (decodeHeader op ty) := by
  have eqOf {n : Nat} (h : op.toNat = n) : op = BitVec.ofNat 8 n := by subst h; simp
  have two {n : Nat} (mk : Mode2 → Byte → Byte → Instr) (h : op.toNat = n)
      (hn : n ∈ [0x11, 0x12, 0x13, 0x14, 0x15, 0x1A, 0x1B, 0x1C])
      (hmk : ∀ m d b, encode (mk m d b) = [BitVec.ofNat 8 n, m.typeByte, d, b]) :
      HeaderLaw op ty (headerTwo op ty mk) :=
    headerTwo_law (by rw [eqOf h]; exact hmk) (by rw [h]; exact List.mem_cons_of_mem _ hn)
      (by intro h'; rw [← h, h'] at hn; simp at hn)
  have one {n : Nat} (mk : Mode1 → Byte → Instr) (h : op.toNat = n) (hn : n ∈ [0x02, 0x17, 0x18, 0x19])
      (hmk : ∀ m b, encode (mk m b) = [BitVec.ofNat 8 n, m.typeByte, b]) : HeaderLaw op ty (headerOne op ty mk) :=
    headerOne_law (by rw [eqOf h]; exact hmk) (by rw [h]; exact hn)
  unfold decodeHeader
  split
  case h_1 h => exact .zero _ (by rw [eqOf h]; rfl) (by simp [instrLength, h])
  case h_2 h => exact .zero _ (by rw [eqOf h]; rfl) (by simp [instrLength, h])
  case h_3 h => exact one _ h (by decide) (by intro m; cases m <;> intros <;> rfl)
  case h_4 h => exact headerMov_law (eqOf h)
  case h_10 h => exact headerNot_law (eqOf h)
  case h_11 h => exact one _ h (by decide) (by intro m; cases m <;> intros <;> rfl)
  case h_12 h => exact one _ h (by decide) (by intro m; cases m <;> intros <;> rfl)
  case h_13 h => exact one _ h (by decide) (by intro m; cases m <;> intros <;> rfl)
  case h_17 => exact .badOpcode (by simp_all [instrLength])
  all_goals rename_i h; exact two _ h (by decide) (by intro m; cases m <;> intros <;> rfl)

end Sys2Proof
end

