-- ==== Sys2Proof/Laws/Memory.lean ====
section
/-! SUPPORT. Memory: a read after a write, and the canonical form that every write keeps. -/

namespace Sys2Proof.Machine

theorem Memory.wfFrom_cons (low k : Nat) (x : Byte) (rest : Memory) :
    Memory.wfFrom low ((k, x) :: rest) = true ↔
      low ≤ k ∧ k < memorySize ∧ x ≠ Memory.unlisted ∧ Memory.wfFrom (k + 1) rest = true := by
  simp [Memory.wfFrom, and_assoc]

theorem Memory.wfFrom_mono {low low' : Nat} (h : low' ≤ low) {m : Memory} (hm : Memory.wfFrom low m = true) :
    Memory.wfFrom low' m = true := by
  cases m with
  | nil => rfl
  | cons p rest =>
    obtain ⟨k, x⟩ := p
    rw [Memory.wfFrom_cons] at hm ⊢
    exact ⟨by omega, hm.2⟩

/-- Below its first address a canonical memory lists nothing. -/
theorem Memory.read_below {low a : Nat} (h : a < low) {m : Memory} (hm : Memory.wfFrom low m = true) :
    Memory.read m a = Memory.unlisted := by
  induction m generalizing low with
  | nil => rfl
  | cons p rest ih =>
    obtain ⟨k, x⟩ := p
    rw [Memory.wfFrom_cons] at hm
    have hne : a ≠ k := by omega
    simp only [Memory.read, hne, if_false]
    exact ih (by omega) hm.2.2.2

/-- A write keeps the canonical form. -/
theorem Memory.write_wfFrom {low a : Nat} (v : Byte) (hl : low ≤ a) (ha : a < memorySize) {m : Memory}
    (hm : Memory.wfFrom low m = true) : Memory.wfFrom low (Memory.write m a v) = true := by
  induction m generalizing low with
  | nil =>
    unfold Memory.write
    split
    · rfl
    · next hv => rw [Memory.wfFrom_cons]; exact ⟨hl, ha, hv, rfl⟩
  | cons p rest ih =>
    obtain ⟨k, x⟩ := p
    have hc := (Memory.wfFrom_cons ..).1 hm
    unfold Memory.write
    split
    · next hak =>
      split
      · exact hm
      · next hv =>
        rw [Memory.wfFrom_cons]
        exact ⟨hl, ha, hv, (Memory.wfFrom_cons ..).2 ⟨by omega, hc.2⟩⟩
    · next hak =>
      split
      · next hk =>
        split
        · exact Memory.wfFrom_mono (by omega) hc.2.2.2
        · next hv => rw [Memory.wfFrom_cons]; exact ⟨hl, ha, hv, hk ▸ hc.2.2.2⟩
      · next hk =>
        rw [Memory.wfFrom_cons]
        exact ⟨hc.1, hc.2.1, hc.2.2.1, ih (by omega) hc.2.2.2⟩

theorem Memory.write_wf {a : Nat} (v : Byte) (ha : a < memorySize) {m : Memory} (hm : m.wf = true) :
    (Memory.write m a v).wf = true :=
  Memory.write_wfFrom v (Nat.zero_le a) ha hm

/-- A read after a write: the written byte at its address, every other byte as before. -/
theorem Memory.read_write_from {low : Nat} (a x : Nat) (v : Byte) {m : Memory} (hm : Memory.wfFrom low m = true) :
    Memory.read (Memory.write m a v) x = if x = a then v else Memory.read m x := by
  induction m generalizing low with
  | nil =>
    unfold Memory.write
    split
    · next hv => subst hv; simp [Memory.read]
    · simp [Memory.read]
  | cons p rest ih =>
    obtain ⟨k, y⟩ := p
    have hc := (Memory.wfFrom_cons ..).1 hm
    unfold Memory.write
    split
    · next hak =>
      split
      · next hv =>
        split
        · next hx =>
          subst hx; rw [hv]
          exact Memory.read_below hak ((Memory.wfFrom_cons ..).2 ⟨le_refl k, hc.2⟩)
        · rfl
      · simp only [Memory.read]
    · next hak =>
      split
      · next hk =>
        subst hk
        split
        · next hv =>
          simp only [Memory.read]
          split
          · next hx => subst hx; rw [hv]; exact Memory.read_below (by omega) hc.2.2.2
          · rfl
        · simp only [Memory.read]; split <;> rfl
      · next hk =>
        simp only [Memory.read]
        rw [ih hc.2.2.2]
        split
        · next hx => subst hx; rw [if_neg (fun h => hk h.symm)]
        · rfl

theorem Memory.read_write (a x : Nat) (v : Byte) {m : Memory} (hm : m.wf = true) :
    Memory.read (Memory.write m a v) x = if x = a then v else Memory.read m x :=
  Memory.read_write_from a x v hm

/-- Canonical memories that read alike are equal. -/
theorem Memory.ext_of_read {low : Nat} {m n : Memory} (hm : Memory.wfFrom low m = true) (hn : Memory.wfFrom low n = true)
    (h : ∀ x, Memory.read m x = Memory.read n x) : m = n := by
  induction m generalizing n low with
  | nil =>
    cases n with
    | nil => rfl
    | cons p rest =>
      obtain ⟨k, x⟩ := p
      have hx := h k
      simp [Memory.read] at hx
      exact absurd hx.symm ((Memory.wfFrom_cons ..).1 hn).2.2.1
  | cons p rest ih =>
    obtain ⟨k, x⟩ := p
    have hc := (Memory.wfFrom_cons ..).1 hm
    cases n with
    | nil =>
      have hx := h k
      simp [Memory.read] at hx
      exact absurd hx hc.2.2.1
    | cons q rest' =>
      obtain ⟨j, y⟩ := q
      have hd := (Memory.wfFrom_cons ..).1 hn
      have hkj : k = j := by
        rcases Nat.lt_trichotomy k j with hlt | heq | hgt
        · have hx := h k
          rw [Memory.read_below hlt ((Memory.wfFrom_cons ..).2 ⟨le_refl j, hd.2⟩)] at hx
          simp [Memory.read] at hx
          exact absurd hx hc.2.2.1
        · exact heq
        · have hx := h j
          rw [Memory.read_below hgt ((Memory.wfFrom_cons ..).2 ⟨le_refl k, hc.2⟩)] at hx
          simp [Memory.read] at hx
          exact absurd hx.symm hd.2.2.1
      subst hkj
      have hxy : x = y := by simpa [Memory.read] using h k
      subst hxy
      congr 1
      refine ih hc.2.2.2 hd.2.2.2 fun z => ?_
      by_cases hz : z = k
      · subst hz
        rw [Memory.read_below (by omega) hc.2.2.2, Memory.read_below (by omega) hd.2.2.2]
      · simpa [Memory.read, hz] using h z

theorem memWrite_wf {s : State} (a : Addr) (v : Int) (h : s.mem.wf = true) : (s.memWrite a v).mem.wf = true :=
  Memory.write_wf _ a.isLt h

theorem memRead_memWrite {s : State} (h : s.mem.wf = true) (a b : Addr) (v : Int) :
    (s.memWrite a v).memRead b = if b = a then BitVec.ofInt 8 v else s.memRead b := by
  simp only [State.memRead, memWrite_mem, Memory.read_write _ _ _ h, BitVec.toNat_inj]

/-- Storing bytes within memory keeps the canonical form. -/
theorem storeBytes_wf {s : State} (a : Nat) (bs : List Byte) (hl : a + bs.length ≤ memorySize) (h : s.mem.wf = true) :
    (s.storeBytes a bs).mem.wf = true := by
  induction bs generalizing s a with
  | nil => exact h
  | cons b rest ih =>
    simp only [List.length_cons] at hl
    exact ih (s := { s with mem := s.mem.write a b }) (a + 1) (by omega) (Memory.write_wf b (by omega) h)

theorem reset_mem_wf : State.reset.mem.wf = true := rfl

/-- Storing bytes changes memory and nothing else. -/
theorem storeBytes_frame (s : State) (a : Nat) (bs : List Byte) :
    { s.storeBytes a bs with mem := s.mem } = s := by
  induction bs generalizing s a with
  | nil => rfl
  | cons b bs ih => exact congrArg (fun t : State => { t with mem := s.mem }) (ih { s with mem := s.mem.write a b } (a + 1))

/-- A load writes its image, before a run and where it fits, or nothing (R62, R92). -/
theorem load_cases (s : State) (image : List Byte) :
    (s.running = false ∧ image.length ≤ memorySize ∧ s.load image = s.storeBytes 0 image) ∨
    ((s.running = true ∨ memorySize < image.length) ∧ s.load image = s) := by
  unfold State.load
  split
  · next h => exact .inl ⟨h.1, h.2, rfl⟩
  · next h =>
    refine .inr ⟨?_, rfl⟩
    by_cases hr : s.running = true
    · exact .inl hr
    · exact .inr (Nat.lt_of_not_le fun hl => h ⟨by simpa using hr, hl⟩)

/-- A load keeps the canonical form of memory. -/
theorem load_wf {s : State} (image : List Byte) (h : s.mem.wf = true) : (s.load image).mem.wf = true := by
  rcases load_cases s image with ⟨_, hl, e⟩ | ⟨_, e⟩ <;> rw [e]
  · exact storeBytes_wf 0 image (by omega) h
  · exact h

end Sys2Proof.Machine
end

