-- ==== Sys2Proof/Laws/Registers.lean ====
section
/-! SUPPORT. The register file: banks, views and codes. -/

namespace Sys2Proof.Machine

@[simp] theorem Banks.get_set_same (b : Banks) (r : Reg) (v : Nibble) : (b.set r v).get r = v := by
  cases r <;> rfl

theorem Banks.get_set (b : Banks) (r q : Reg) (v : Nibble) :
    (b.set r v).get q = if q = r then v else b.get q := by
  cases r <;> cases q <;> rfl

/-- Banks that agree register by register are equal. -/
theorem Banks.ext_of_get {b c : Banks} (h : ∀ r, b.get r = c.get r) : b = c := by
  have hA := h .A; have hB := h .B; have hC := h .C; have hD := h .D; have hE := h .E; have hG := h .G
  cases b; cases c
  simp only [Banks.get] at hA hB hC hD hE hG
  subst hA hB hC hD hE hG
  rfl

/-- The codes that name a view are those `WellFormed` accepts (R13, R22). -/
theorem validCode_eq_regCodeOk : ∀ c : RegCode, validCode c = regCodeOk c := by decide

theorem regCodeOk_iff (c : RegCode) : regCodeOk c = true ↔ 1 ≤ c.toNat ∧ c.toNat ≤ 18 := by
  simp [regCodeOk]

theorem validCode_iff (c : RegCode) : validCode c = true ↔ 1 ≤ c.toNat ∧ c.toNat ≤ 18 := by
  rw [validCode_eq_regCodeOk, regCodeOk_iff]

theorem readReg_of_view {c : RegCode} {w : RegView} (h : RegView.ofCode c = some w) (s : State) :
    s.readReg c = s.readView w := by
  simp [State.readReg, State.readPort, h]

theorem readReg_of_none {c : RegCode} (h : RegView.ofCode c = none) (s : State) : s.readReg c = 0 := by
  simp [State.readReg, State.readPort, h]

theorem writeReg_of_view {c : RegCode} {w : RegView} (h : RegView.ofCode c = some w) (s : State) (v : Int) :
    s.writeReg c v = s.writeView w v := by
  simp [State.writeReg, h]

theorem writeReg_of_none {c : RegCode} (h : RegView.ofCode c = none) (s : State) (v : Int) : s.writeReg c v = s := by
  simp [State.writeReg, h]

/-- A register reads the banks and nothing else. -/
theorem readReg_congr {s t : State} (hh : t.hi = s.hi) (hl : t.lo = s.lo) (c : RegCode) : t.readReg c = s.readReg c := by
  unfold State.readReg State.readPort
  split
  · next w _ => cases w <;> simp [State.readView, hh, hl]
  · rfl

/-- The high bank of a register after a write through a view. -/
theorem writeView_hi_get (s : State) (w : RegView) (v : Int) (q : Reg) :
    (s.writeView w v).hi.get q =
      match w with
      | .whole r => if q = r then (BitVec.ofInt 8 v).extractLsb' 4 4 else s.hi.get q
      | .high r => if q = r then BitVec.ofInt 4 v else s.hi.get q
      | .low _ => s.hi.get q := by
  cases w <;> simp only [State.writeView, Banks.get_set]

/-- The low bank of a register after a write through a view. -/
theorem writeView_lo_get (s : State) (w : RegView) (v : Int) (q : Reg) :
    (s.writeView w v).lo.get q =
      match w with
      | .whole r => if q = r then BitVec.ofInt 4 v else s.lo.get q
      | .high _ => s.lo.get q
      | .low r => if q = r then BitVec.ofInt 4 v else s.lo.get q := by
  cases w <;> simp only [State.writeView, Banks.get_set]

/-- Two writes through one view: the later one stands. -/
theorem writeView_writeView (s : State) (w : RegView) (u v : Int) : (s.writeView w u).writeView w v = s.writeView w v := by
  have hset (b : Banks) (r : Reg) (x y : Nibble) : (b.set r x).set r y = b.set r y := by cases r <;> rfl
  cases w <;> simp only [State.writeView, hset]

end Sys2Proof.Machine
end

