-- ==== Sys2Proof/Laws/Operands.lean ====
section
/-! SUPPORT. Operands: when their check passes, what a write-back changes, and the two ways `withOperands` can end. -/

namespace Sys2Proof.Machine

/-- The address check never fires: every address is one byte (R51). -/
theorem addressError_none (o : OpClass × Byte) : addressError o = none := by
  unfold addressError checkAddr
  split
  · rw [if_neg (by have := o.2.isLt; simp only [memorySize]; omega)]
  · rfl
  · rfl

/-- Only the register-code check can fail. -/
theorem operandError_eq (s : State) (os : List (OpClass × Byte)) : s.operandError os = os.findSome? s.registerError := by
  unfold State.operandError
  split
  · next h => exact h.symm
  · next h =>
    rw [h]
    exact List.findSome?_eq_none_iff.2 fun o _ => addressError_none o

/-- A ready operand passes the register-code check. -/
theorem registerError_ready {s : State} {c : OpClass} {b : Byte} (h : s.OperandReady c b) : s.registerError (c, b) = none := by
  unfold State.registerError
  cases c <;> cases hb : s.cfg.badReg <;> simp only []
  rcases h rfl with hv | hz
  · rw [if_pos ((validCode_iff b).2 hv)]
  · rw [hb] at hz; cases hz

theorem operandError_one {s : State} {c : OpClass} {b : Byte} (h : s.OperandReady c b) : s.operandError [(c, b)] = none := by
  simp [operandError_eq, registerError_ready h]

theorem operandError_two {s : State} {c c' : OpClass} {b b' : Byte} (h : s.OperandReady c b) (h' : s.OperandReady c' b') :
    s.operandError [(c, b), (c', b')] = none := by
  simp [operandError_eq, registerError_ready h, registerError_ready h']

/-- The only error of an operand check is `UnknownRegister`, of a code outside 0x01..0x12, under `ABANDON` (R100). -/
theorem registerError_some {s : State} {o : OpClass × Byte} {e : RuntimeError} (h : s.registerError o = some e) :
    o.1 = .R ∧ s.cfg.badReg = .abandon ∧ validCode o.2 = false ∧ e = .unknownRegister o.2 := by
  unfold State.registerError at h
  split at h
  · next h1 h2 =>
    split at h
    · cases h
    · next hv => exact ⟨h1, h2, by simpa using hv, by cases h; rfl⟩
  all_goals cases h

theorem operandError_some {s : State} {os : List (OpClass × Byte)} {e : RuntimeError} (h : s.operandError os = some e) :
    ∃ c, s.cfg.badReg = .abandon ∧ validCode c = false ∧ e = .unknownRegister c := by
  rw [operandError_eq] at h
  obtain ⟨o, _, ho⟩ := List.exists_of_findSome?_eq_some h
  obtain ⟨_, hb, hv, he⟩ := registerError_some ho
  exact ⟨o.2, hb, hv, he⟩

/-- `withOperands` abandons the instruction or goes on. -/
theorem withOperands_cases (s : State) (os : List (OpClass × Byte)) (k : Result) :
    (∃ e, s.operandError os = some e ∧ withOperands s os k = .next (s.raise e)) ∨
    (s.operandError os = none ∧ withOperands s os k = k) := by
  unfold withOperands
  cases h : s.operandError os with
  | none => exact .inr ⟨rfl, rfl⟩
  | some e => exact .inl ⟨e, rfl, rfl⟩

theorem withOperands_of_none {s : State} {os : List (OpClass × Byte)} (h : s.operandError os = none) (k : Result) :
    withOperands s os k = k := by
  simp [withOperands, h]

/-! A write-back changes the banks or memory and nothing else. -/

@[simp] theorem writeBack_flags (s : State) (c : OpClass) (b : Byte) (r : Int) : (s.writeBack c b r).flags = s.flags := by
  cases c <;> simp [State.writeBack]
@[simp] theorem writeBack_pc (s : State) (c : OpClass) (b : Byte) (r : Int) : (s.writeBack c b r).pc = s.pc := by
  cases c <;> simp [State.writeBack]
@[simp] theorem writeBack_ir (s : State) (c : OpClass) (b : Byte) (r : Int) : (s.writeBack c b r).ir = s.ir := by
  cases c <;> simp [State.writeBack]
@[simp] theorem writeBack_running (s : State) (c : OpClass) (b : Byte) (r : Int) :
    (s.writeBack c b r).running = s.running := by
  cases c <;> simp [State.writeBack]
@[simp] theorem writeBack_cfg (s : State) (c : OpClass) (b : Byte) (r : Int) : (s.writeBack c b r).cfg = s.cfg := by
  cases c <;> simp [State.writeBack]
@[simp] theorem writeBack_log (s : State) (c : OpClass) (b : Byte) (r : Int) : (s.writeBack c b r).log = s.log := by
  cases c <;> simp [State.writeBack]

theorem writeBack_mem_wf {s : State} (c : OpClass) (b : Byte) (r : Int) (h : s.mem.wf = true) :
    (s.writeBack c b r).mem.wf = true := by
  cases c with
  | R => simpa [State.writeBack] using h
  | M => exact memWrite_wf b r h
  | I => exact h

end Sys2Proof.Machine
end

