-- ==== Sys2Proof/Laws/Exec.lean ====
section
/-! SUPPORT. For each shared operation of the meanings, once: every way it can end. -/

namespace Sys2Proof.Machine

/-- `move` abandons the instruction, or writes the src operand's value. -/
theorem move_cases (m : Mode2) (d b : Byte) (s : State) :
    (∃ e, s.operandError [(m.dest, d), (m.src, b)] = some e ∧ move m d b s = .next (s.raise e)) ∨
    (s.operandError [(m.dest, d), (m.src, b)] = none ∧
      move m d b s = .next (s.writeBack m.dest d (s.operand m.src b).toNat)) :=
  withOperands_cases _ _ _

/-- `binop` abandons the instruction, or writes the result if it is to be written and runs the Flag Unit on it. -/
theorem binop_cases (f : Nat → Nat → Int) (w : Bool) (m : Mode2) (d b : Byte) (s : State) :
    (∃ e, s.operandError [(m.dest, d), (m.src, b)] = some e ∧ binop f w m d b s = .next (s.raise e)) ∨
    (s.operandError [(m.dest, d), (m.src, b)] = none ∧
      binop f w m d b s =
        let r := f (s.operand m.dest d).toNat (s.operand m.src b).toNat
        .next ((if w then s.writeBack m.dest d r else s).updateFlags r)) :=
  withOperands_cases _ _ _

/-- `complement` abandons the instruction, or writes the complement and runs the Flag Unit on it. -/
theorem complement_cases (m : Mode1) (b : Byte) (s : State) :
    (∃ e, s.operandError [(m.cls, b)] = some e ∧ complement m b s = .next (s.raise e)) ∨
    (s.operandError [(m.cls, b)] = none ∧
      complement m b s =
        let r := notResult s.cfg.notResult (s.operand m.cls b).toNat
        .next ((s.writeBack m.cls b r).updateFlags r)) :=
  withOperands_cases _ _ _

/-- `jump` is not taken, is abandoned, or sets `pc` to the operand's value. -/
theorem jump_cases (cond : Bool) (m : Mode1) (b : Byte) (s : State) :
    (cond = false ∧ jump cond m b s = .next s) ∨
    (cond = true ∧ ∃ e, s.operandError [(m.cls, b)] = some e ∧ jump cond m b s = .next (s.raise e)) ∨
    (cond = true ∧ s.operandError [(m.cls, b)] = none ∧
      jump cond m b s = .next { s with pc := BitVec.ofNat 9 (s.operand m.cls b).toNat }) := by
  cases cond with
  | false => exact .inl ⟨rfl, rfl⟩
  | true =>
    refine .inr ?_
    have hlt : ¬ memorySize ≤ (s.operand m.cls b).toNat := by
      have := (s.operand m.cls b).isLt; simp only [memorySize]; omega
    rcases withOperands_cases s [(m.cls, b)] (.next { s with pc := BitVec.ofNat 9 (s.operand m.cls b).toNat })
      with ⟨e, he, hk⟩ | ⟨he, hk⟩
    · exact .inl ⟨rfl, e, he, by simp only [jump, hlt, if_true, if_false]; exact hk⟩
    · exact .inr ⟨rfl, he, by simp only [jump, hlt, if_true, if_false]; exact hk⟩

/-- `interrupt` is abandoned, sends its number and AX to the port, or raises `UnknownInterrupt`. -/
theorem interrupt_cases (m : Mode1) (b : Byte) (s : State) :
    (∃ e, s.operandError [(m.cls, b)] = some e ∧ interrupt m b s = .next (s.raise e)) ∨
    (s.operandError [(m.cls, b)] = none ∧ (s.operand m.cls b).toNat < 2 ∧
      interrupt m b s = .next (s.emit (.interrupt (s.operand m.cls b) (s.readReg codeAX)))) ∨
    (s.operandError [(m.cls, b)] = none ∧ 2 ≤ (s.operand m.cls b).toNat ∧
      interrupt m b s = .next (s.raise (.unknownInterrupt (s.operand m.cls b)))) := by
  unfold interrupt
  rcases withOperands_cases s [(m.cls, b)] (
      let n := s.operand m.cls b
      if n = 0 then .next (s.emit (.interrupt 0 (s.readReg codeAX)))
      else if n = 1 then .next (s.emit (.interrupt 1 (s.readReg codeAX)))
      else .next (s.raise (.unknownInterrupt n))) with ⟨e, he, hk⟩ | ⟨he, hk⟩
  · exact .inl ⟨e, he, hk⟩
  · refine .inr ?_
    rw [hk]
    generalize s.operand m.cls b = n
    by_cases h0 : n = 0
    · subst h0; exact .inl ⟨he, by decide, rfl⟩
    · by_cases h1 : n = 1
      · subst h1; exact .inl ⟨he, by decide, rfl⟩
      · refine .inr ⟨he, ?_, by simp only [h0, h1, if_false]⟩
        have h0' : n.toNat ≠ 0 := fun h => h0 (BitVec.eq_of_toNat_eq h)
        have h1' : n.toNat ≠ 1 := fun h => h1 (BitVec.eq_of_toNat_eq h)
        omega

/-- The eight two-operand ALU instructions: their forms, their results and whether the result is written (R77). -/
def binaryTable : List ((Mode2 → Byte → Byte → Instr) × (Nat → Nat → Int) × Bool) :=
  [(addOf, addResult, true), (subOf, subResult, true), (andOf, andResult, true), (orOf, orResult, true),
    (xorOf, xorResult, true), (shlOf, shlResult, true), (shrOf, shrResult, true), (cmpOf, subResult, false)]

/-- An ALU instruction of the table runs `binop` with its row. -/
theorem exec_binary {e : (Mode2 → Byte → Byte → Instr) × (Nat → Nat → Int) × Bool} (h : e ∈ binaryTable) (m : Mode2)
    (d b : Byte) (s : State) : exec (e.1 m d b) s = binop e.2.1 e.2.2 m d b s := by
  simp only [binaryTable, List.mem_cons, List.not_mem_nil, or_false] at h
  rcases h with rfl | rfl | rfl | rfl | rfl | rfl | rfl | rfl <;> cases m <;> rfl

theorem exec_mov (m : Mode2) (d b : Byte) (s : State) : exec (movOf m d b) s = move m d b s := by cases m <;> rfl
theorem exec_int (m : Mode1) (b : Byte) (s : State) : exec (intOf m b) s = interrupt m b s := by cases m <;> rfl
theorem exec_jmp (m : Mode1) (b : Byte) (s : State) : exec (jmpOf m b) s = jump true m b s := by cases m <;> rfl
theorem exec_jz (m : Mode1) (b : Byte) (s : State) : exec (jzOf m b) s = jump s.flags.ZF m b s := by cases m <;> rfl
theorem exec_jc (m : Mode1) (b : Byte) (s : State) : exec (jcOf m b) s = jump s.flags.CF m b s := by cases m <;> rfl

/-- Where an ALU instruction of the table stores: at its dest byte, if it writes and its dest is of memory class. -/
theorem storedTo_binary {e : (Mode2 → Byte → Byte → Instr) × (Nat → Nat → Int) × Bool} (h : e ∈ binaryTable) (m : Mode2)
    (d b : Byte) : storedTo (e.1 m d b) = if e.2.2 = true ∧ m.dest = .M then some d else none := by
  simp only [binaryTable, List.mem_cons, List.not_mem_nil, or_false] at h
  rcases h with rfl | rfl | rfl | rfl | rfl | rfl | rfl | rfl <;> cases m <;> rfl

theorem storedTo_mov (m : Mode2) (d b : Byte) : storedTo (movOf m d b) = if m.dest = .M then some d else none := by
  cases m <;> rfl

/-- The register an ALU instruction of the table writes: its dest code, if it writes and its dest is of register class. -/
theorem registerWrittenBy_binary {e : (Mode2 → Byte → Byte → Instr) × (Nat → Nat → Int) × Bool} (h : e ∈ binaryTable)
    (m : Mode2) (d b : Byte) :
    registerWrittenBy (e.1 m d b) = if e.2.2 = true ∧ m.dest = .R then some d else none := by
  simp only [binaryTable, List.mem_cons, List.not_mem_nil, or_false] at h
  rcases h with rfl | rfl | rfl | rfl | rfl | rfl | rfl | rfl <;> cases m <;> rfl

theorem registerWrittenBy_mov (m : Mode2) (d b : Byte) :
    registerWrittenBy (movOf m d b) = if m.dest = .R then some d else none := by cases m <;> rfl
@[simp] theorem registerWrittenBy_int (m : Mode1) (b : Byte) : registerWrittenBy (intOf m b) = none := by cases m <;> rfl
@[simp] theorem registerWrittenBy_jmp (m : Mode1) (b : Byte) : registerWrittenBy (jmpOf m b) = none := by cases m <;> rfl
@[simp] theorem registerWrittenBy_jz (m : Mode1) (b : Byte) : registerWrittenBy (jzOf m b) = none := by cases m <;> rfl
@[simp] theorem registerWrittenBy_jc (m : Mode1) (b : Byte) : registerWrittenBy (jcOf m b) = none := by cases m <;> rfl
@[simp] theorem storedTo_int (m : Mode1) (b : Byte) : storedTo (intOf m b) = none := by cases m <;> rfl
@[simp] theorem storedTo_jmp (m : Mode1) (b : Byte) : storedTo (jmpOf m b) = none := by cases m <;> rfl
@[simp] theorem storedTo_jz (m : Mode1) (b : Byte) : storedTo (jzOf m b) = none := by cases m <;> rfl
@[simp] theorem storedTo_jc (m : Mode1) (b : Byte) : storedTo (jcOf m b) = none := by cases m <;> rfl

/-- Every instruction is one of these forms. A claim about all instructions splits on them and not on the 71
constructors. -/
inductive Form : Instr → Prop where
  | nop (ty : Byte) : Form (.nop ty)
  | hlt (ty : Byte) : Form (.hlt ty)
  | int (m : Mode1) (b : Byte) : Form (intOf m b)
  | mov (m : Mode2) (d b : Byte) : Form (movOf m d b)
  | movMop (k : Imm) : Form (.movMop k)
  | binary (e : (Mode2 → Byte → Byte → Instr) × (Nat → Nat → Int) × Bool) (h : e ∈ binaryTable) (m : Mode2)
      (d b : Byte) : Form (e.1 m d b)
  | notR (c : RegCode) : Form (.notR c)
  | notM (a : Addr) : Form (.notM a)
  | jmp (m : Mode1) (b : Byte) : Form (jmpOf m b)
  | jz (m : Mode1) (b : Byte) : Form (jzOf m b)
  | jc (m : Mode1) (b : Byte) : Form (jcOf m b)

theorem form (i : Instr) : Form i := by
  cases i
  case nop x => exact .nop x
  case hlt x => exact .hlt x
  case intR b => exact .int .reg b
  case intM b => exact .int .mem b
  case intI b => exact .int .imm b
  case movRR d b => exact .mov .rr d b
  case movRM d b => exact .mov .rm d b
  case movMR d b => exact .mov .mr d b
  case movRI d b => exact .mov .ri d b
  case movMM d b => exact .mov .mm d b
  case movMI d b => exact .mov .mi d b
  case movMop x => exact .movMop x
  case addRR d b => exact .binary (addOf, addResult, true) (by simp [binaryTable]) .rr d b
  case addRM d b => exact .binary (addOf, addResult, true) (by simp [binaryTable]) .rm d b
  case addMR d b => exact .binary (addOf, addResult, true) (by simp [binaryTable]) .mr d b
  case addRI d b => exact .binary (addOf, addResult, true) (by simp [binaryTable]) .ri d b
  case addMM d b => exact .binary (addOf, addResult, true) (by simp [binaryTable]) .mm d b
  case addMI d b => exact .binary (addOf, addResult, true) (by simp [binaryTable]) .mi d b
  case subRR d b => exact .binary (subOf, subResult, true) (by simp [binaryTable]) .rr d b
  case subRM d b => exact .binary (subOf, subResult, true) (by simp [binaryTable]) .rm d b
  case subMR d b => exact .binary (subOf, subResult, true) (by simp [binaryTable]) .mr d b
  case subRI d b => exact .binary (subOf, subResult, true) (by simp [binaryTable]) .ri d b
  case subMM d b => exact .binary (subOf, subResult, true) (by simp [binaryTable]) .mm d b
  case subMI d b => exact .binary (subOf, subResult, true) (by simp [binaryTable]) .mi d b
  case andRR d b => exact .binary (andOf, andResult, true) (by simp [binaryTable]) .rr d b
  case andRM d b => exact .binary (andOf, andResult, true) (by simp [binaryTable]) .rm d b
  case andMR d b => exact .binary (andOf, andResult, true) (by simp [binaryTable]) .mr d b
  case andRI d b => exact .binary (andOf, andResult, true) (by simp [binaryTable]) .ri d b
  case andMM d b => exact .binary (andOf, andResult, true) (by simp [binaryTable]) .mm d b
  case andMI d b => exact .binary (andOf, andResult, true) (by simp [binaryTable]) .mi d b
  case orRR d b => exact .binary (orOf, orResult, true) (by simp [binaryTable]) .rr d b
  case orRM d b => exact .binary (orOf, orResult, true) (by simp [binaryTable]) .rm d b
  case orMR d b => exact .binary (orOf, orResult, true) (by simp [binaryTable]) .mr d b
  case orRI d b => exact .binary (orOf, orResult, true) (by simp [binaryTable]) .ri d b
  case orMM d b => exact .binary (orOf, orResult, true) (by simp [binaryTable]) .mm d b
  case orMI d b => exact .binary (orOf, orResult, true) (by simp [binaryTable]) .mi d b
  case xorRR d b => exact .binary (xorOf, xorResult, true) (by simp [binaryTable]) .rr d b
  case xorRM d b => exact .binary (xorOf, xorResult, true) (by simp [binaryTable]) .rm d b
  case xorMR d b => exact .binary (xorOf, xorResult, true) (by simp [binaryTable]) .mr d b
  case xorRI d b => exact .binary (xorOf, xorResult, true) (by simp [binaryTable]) .ri d b
  case xorMM d b => exact .binary (xorOf, xorResult, true) (by simp [binaryTable]) .mm d b
  case xorMI d b => exact .binary (xorOf, xorResult, true) (by simp [binaryTable]) .mi d b
  case notR x => exact .notR x
  case notM x => exact .notM x
  case jmpR b => exact .jmp .reg b
  case jmpM b => exact .jmp .mem b
  case jmpI b => exact .jmp .imm b
  case jzR b => exact .jz .reg b
  case jzM b => exact .jz .mem b
  case jzI b => exact .jz .imm b
  case jcR b => exact .jc .reg b
  case jcM b => exact .jc .mem b
  case jcI b => exact .jc .imm b
  case shlRR d b => exact .binary (shlOf, shlResult, true) (by simp [binaryTable]) .rr d b
  case shlRM d b => exact .binary (shlOf, shlResult, true) (by simp [binaryTable]) .rm d b
  case shlMR d b => exact .binary (shlOf, shlResult, true) (by simp [binaryTable]) .mr d b
  case shlRI d b => exact .binary (shlOf, shlResult, true) (by simp [binaryTable]) .ri d b
  case shlMM d b => exact .binary (shlOf, shlResult, true) (by simp [binaryTable]) .mm d b
  case shlMI d b => exact .binary (shlOf, shlResult, true) (by simp [binaryTable]) .mi d b
  case shrRR d b => exact .binary (shrOf, shrResult, true) (by simp [binaryTable]) .rr d b
  case shrRM d b => exact .binary (shrOf, shrResult, true) (by simp [binaryTable]) .rm d b
  case shrMR d b => exact .binary (shrOf, shrResult, true) (by simp [binaryTable]) .mr d b
  case shrRI d b => exact .binary (shrOf, shrResult, true) (by simp [binaryTable]) .ri d b
  case shrMM d b => exact .binary (shrOf, shrResult, true) (by simp [binaryTable]) .mm d b
  case shrMI d b => exact .binary (shrOf, shrResult, true) (by simp [binaryTable]) .mi d b
  case cmpRR d b => exact .binary (cmpOf, subResult, false) (by simp [binaryTable]) .rr d b
  case cmpRM d b => exact .binary (cmpOf, subResult, false) (by simp [binaryTable]) .rm d b
  case cmpMR d b => exact .binary (cmpOf, subResult, false) (by simp [binaryTable]) .mr d b
  case cmpRI d b => exact .binary (cmpOf, subResult, false) (by simp [binaryTable]) .ri d b
  case cmpMM d b => exact .binary (cmpOf, subResult, false) (by simp [binaryTable]) .mm d b
  case cmpMI d b => exact .binary (cmpOf, subResult, false) (by simp [binaryTable]) .mi d b

end Sys2Proof.Machine
end

