-- ==== Sys2Proof/Laws/Flags.lean ====
section
/-! SUPPORT. The Flag Unit: its masked result as a remainder, and what it leaves. -/

namespace Sys2Proof.Machine

/-- `result & max` is the remainder of the result by `max + 1` (R117). -/
theorem maskedResult_toNat (r : Int) (mop : Bool) :
    ((maskedResult r mop).toNat : Int) = r % (if mop then 16 else 256) := by
  have h8 : ((BitVec.ofInt 8 r).toNat : Int) = r % 256 := by
    rw [BitVec.toNat_ofInt]; norm_num; omega
  cases mop with
  | false =>
    have : maskedResult r false = BitVec.ofInt 8 r := by
      unfold maskedResult flagMax
      exact BitVec.and_allOnes (x := BitVec.ofInt 8 r)
    rw [this]; simpa using h8
  | true =>
    have hm : (maskedResult r true).toNat = (BitVec.ofInt 8 r).toNat % 16 := by
      unfold maskedResult flagMax
      rw [BitVec.toNat_and]
      exact Nat.and_two_pow_sub_one_eq_mod _ 4
    rw [hm]
    push_cast
    rw [h8]
    simp only [if_true]
    omega

@[simp] theorem flagUnit_IF (r : Int) (mop : Bool) (f : Flags) : (flagUnit r mop f).IF = f.IF := rfl
@[simp] theorem flagUnit_MOP (r : Int) (mop : Bool) (f : Flags) : (flagUnit r mop f).MOP = f.MOP := rfl
@[simp] theorem flagUnit_OF (r : Int) (mop : Bool) (f : Flags) : (flagUnit r mop f).OF = (flagUnit r mop f).CF := rfl

end Sys2Proof.Machine
end

