-- ==== Sys2Proof/Laws/Effect.lean ====
section
/-! SUPPORT. What every instruction can do, said once for all of them. -/

namespace Sys2Proof.Machine

/-- What any instruction can do, in one record: the fields it keeps, what it keeps true, where `pc` goes, and its event,
at most one. After an error event it has changed nothing else. -/
structure Effect (i : Instr) (s t : State) : Prop where
  cfg : t.cfg = s.cfg
  ir : t.ir = s.ir
  IF : t.flags.IF = s.flags.IF
  ofcf : s.flags.OF = s.flags.CF → t.flags.OF = t.flags.CF
  wf : s.mem.wf = true → t.mem.wf = true
  pc : t.pc = BitVec.ofNat 9 ((jumpTarget i s).getD s.pc.toNat)
  ev : ∃ ev : List Event, t.log = ev ++ s.log ∧ ev.length ≤ 1 ∧ (∀ x, .stateChanged x ∉ ev) ∧
      t.running = (s.running && !ev.any Event.halts) ∧
      ∀ e, ev = [.error e] →
        t.hi = s.hi ∧ t.lo = s.lo ∧ t.flags = s.flags ∧ t.mem = s.mem ∧ t.pc = s.pc ∧ e.fatal = false

/-- Abandoning an instruction (R149) has the effect. -/
theorem effect_raise (i s e) (h : e.fatal = false) (hp : jumpTarget i s = none) :
    Effect i s (s.raise e) := by
  refine ⟨by simp, by simp, by simp, by simp, by simp, by simp [hp], [.error e], by simp, by simp, by simp, by simp [h, Event.halts], ?_⟩
  intro e' h'; simp at h'; subst h'; simp [h]

/-- The check of one operand passes exactly when its register, if any, is ready (R100). -/
theorem operandError_none_iff {s : State} {m : Mode1} {b : Byte} :
    s.operandError [(m.cls, b)] = none ↔
      (m = .reg → (regCodeOk b || decide (s.cfg.badReg = .readZero)) = true) := by
  rw [operandError_eq]
  cases m <;> cases h : s.cfg.badReg <;> simp [State.registerError, Mode1.cls, h, validCode_eq_regCodeOk]

/-- Every instruction answers a next state, with such an effect. -/
theorem exec_effect (i : Instr) (s : State) : ∃ t, exec i s = .next t ∧ Effect i s t := by
  have fat : ∀ os e, s.operandError os = some e → e.fatal = false := by
    intro os e h; obtain ⟨c, _, _, rfl⟩ := operandError_some h; rfl
  cases form i with
  | nop ty => exact ⟨s, rfl, rfl, rfl, rfl, id, id, by simp [jumpTarget], [], by simp⟩
  | hlt ty => exact ⟨_, rfl, rfl, rfl, rfl, id, id, by simp [jumpTarget], [.halted .halt], by simp [Event.halts]⟩
  | int m b =>
    rw [exec_int]
    rcases interrupt_cases m b s with ⟨e, he, h⟩ | ⟨_, h1, h⟩ | ⟨_, h1, h⟩
    · exact ⟨_, h, effect_raise _ _ _ (fat _ _ he) (by cases m <;> rfl)⟩
    · exact ⟨_, h, rfl, rfl, rfl, id, id, by cases m <;> simp [jumpTarget, intOf], [.interrupt (s.operand m.cls b) (s.readReg codeAX)], by simp [Event.halts]⟩
    · exact ⟨_, h, effect_raise _ _ _ rfl (by cases m <;> rfl)⟩
  | mov m d b =>
    rw [exec_mov]
    rcases move_cases m d b s with ⟨e, he, h⟩ | ⟨_, h⟩
    · exact ⟨_, h, effect_raise _ _ _ (fat _ _ he) (by cases m <;> rfl)⟩
    · exact ⟨_, h, by simp, by simp, by simp, by simp, writeBack_mem_wf _ _ _, by cases m <;> simp [jumpTarget, movOf], [], by simp⟩
  | movMop k => exact ⟨_, rfl, rfl, rfl, rfl, id, id, by simp [jumpTarget], [], by simp⟩
  | binary e he m d b =>
    rw [exec_binary he]
    have hj : jumpTarget (e.1 m d b) s = none := by
      simp only [binaryTable, List.mem_cons, List.not_mem_nil, or_false] at he
      rcases he with rfl | rfl | rfl | rfl | rfl | rfl | rfl | rfl <;> cases m <;> rfl
    rcases binop_cases e.2.1 e.2.2 m d b s with ⟨e', he', h⟩ | ⟨_, h⟩
    · exact ⟨_, h, effect_raise _ _ _ (fat _ _ he') hj⟩
    · refine ⟨_, h, ?_, ?_, ?_, ?_, ?_, ?_, [], ?_⟩
      · cases e.2.2 <;> simp
      · cases e.2.2 <;> simp
      · cases e.2.2 <;> simp
      · cases e.2.2 <;> simp
      · cases e.2.2 <;> simp only [if_true, if_false, Bool.false_eq_true] <;> first | exact id | exact writeBack_mem_wf _ _ _
      · cases e.2.2 <;> simp [hj]
      · cases e.2.2 <;> simp
  | notR b =>
    rcases complement_cases .reg b s with ⟨e', he', h⟩ | ⟨_, h⟩
    · exact ⟨_, h, effect_raise _ _ _ (fat _ _ he') rfl⟩
    · exact ⟨_, h, by simp, by simp, by simp, by simp, by simp; exact writeBack_mem_wf _ _ _, by simp [jumpTarget], [], by simp⟩
  | notM b =>
    rcases complement_cases .mem b s with ⟨e', he', h⟩ | ⟨_, h⟩
    · exact ⟨_, h, effect_raise _ _ _ (fat _ _ he') rfl⟩
    · exact ⟨_, h, by simp, by simp, by simp, by simp, by simp; exact writeBack_mem_wf _ _ _, by simp [jumpTarget], [], by simp⟩
  | jmp m b =>
    rw [exec_jmp]
    rcases jump_cases true m b s with ⟨h0, h⟩ | ⟨h0, e, he, h⟩ | ⟨h0, he, h⟩
    · cases h0
    · refine ⟨_, h, effect_raise _ _ _ (fat _ _ he) ?_⟩
      have : ¬ (m = .reg → (regCodeOk b || decide (s.cfg.badReg = .readZero)) = true) := by rw [← operandError_none_iff, he]; simp
      cases m <;> simp [jumpTarget, jmpOf] at this ⊢; all_goals exact this
    · refine ⟨_, h, rfl, rfl, rfl, id, id, ?_, [], by simp⟩
      have := operandError_none_iff.1 he
      cases m <;> simp [jumpTarget, jmpOf, State.operand, Mode1.cls] at this ⊢; simp [this]
  | jz m b =>
    rw [exec_jz]
    rcases jump_cases s.flags.ZF m b s with ⟨h0, h⟩ | ⟨h0, e, he, h⟩ | ⟨h0, he, h⟩
    · exact ⟨_, h, rfl, rfl, rfl, id, id, by cases m <;> simp [jumpTarget, jzOf, h0], [], by simp⟩
    · refine ⟨_, h, effect_raise _ _ _ (fat _ _ he) ?_⟩
      have : ¬ (m = .reg → (regCodeOk b || decide (s.cfg.badReg = .readZero)) = true) := by rw [← operandError_none_iff, he]; simp
      cases m <;> simp [jumpTarget, jzOf, h0] at this ⊢; all_goals exact this
    · refine ⟨_, h, rfl, rfl, rfl, id, id, ?_, [], by simp⟩
      have := operandError_none_iff.1 he
      cases m <;> simp [jumpTarget, jzOf, State.operand, Mode1.cls, h0] at this ⊢; simp [this]
  | jc m b =>
    rw [exec_jc]
    rcases jump_cases s.flags.CF m b s with ⟨h0, h⟩ | ⟨h0, e, he, h⟩ | ⟨h0, he, h⟩
    · exact ⟨_, h, rfl, rfl, rfl, id, id, by cases m <;> simp [jumpTarget, jcOf, h0], [], by simp⟩
    · refine ⟨_, h, effect_raise _ _ _ (fat _ _ he) ?_⟩
      have : ¬ (m = .reg → (regCodeOk b || decide (s.cfg.badReg = .readZero)) = true) := by rw [← operandError_none_iff, he]; simp
      cases m <;> simp [jumpTarget, jcOf, h0] at this ⊢; all_goals exact this
    · refine ⟨_, h, rfl, rfl, rfl, id, id, ?_, [], by simp⟩
      have := operandError_none_iff.1 he
      cases m <;> simp [jumpTarget, jcOf, State.operand, Mode1.cls, h0] at this ⊢; simp [this]

end Sys2Proof.Machine
end

