-- ==== Sys2Proof/Laws/Fetch.lean ====
section
/-! SUPPORT. The fetch: of one byte, of an instruction, and its agreement with `decode`. -/

namespace Sys2Proof.Machine

theorem fetchByte_below {s : State} (h : s.pc.toNat < 256) :
    s.fetchByte = some (s.mem.read s.pc.toNat, { s with pc := s.pc + 1 }) := by
  simp [State.fetchByte, h]

theorem fetchByte_end {s : State} (h : 256 ≤ s.pc.toNat) : s.fetchByte = none := by
  simp [State.fetchByte, Nat.not_lt.2 h]

/-- Within memory `pc` moves by one and does not wrap (R32, R95). -/
theorem pc_succ {p : Pc} (h : p.toNat < 256) : (p + 1).toNat = p.toNat + 1 := by
  rw [BitVec.toNat_add]; simp; omega

/-- A byte fetched, or the end of memory. -/
theorem fetchByte_cases (s : State) :
    (s.pc.toNat < 256 ∧ s.fetchByte = some (s.mem.read s.pc.toNat, { s with pc := s.pc + 1 }) ∧
      (s.pc + 1).toNat = s.pc.toNat + 1) ∨
    (256 ≤ s.pc.toNat ∧ s.fetchByte = none) := by
  by_cases h : s.pc.toNat < 256
  · exact .inl ⟨h, fetchByte_below h, pc_succ h⟩
  · exact .inr ⟨Nat.not_lt.1 h, fetchByte_end (Nat.not_lt.1 h)⟩

theorem ofNat9_toNat {n : Nat} (h : n < 512) : (BitVec.ofNat 9 n).toNat = n := by
  rw [BitVec.toNat_ofNat]; exact Nat.mod_eq_of_lt h

/-! `fetched` -/
@[simp] theorem fetched_hi (s : State) (n : Nat) : (s.fetched n).hi = s.hi := rfl
@[simp] theorem fetched_lo (s : State) (n : Nat) : (s.fetched n).lo = s.lo := rfl
@[simp] theorem fetched_flags (s : State) (n : Nat) : (s.fetched n).flags = s.flags := rfl
@[simp] theorem fetched_running (s : State) (n : Nat) : (s.fetched n).running = s.running := rfl
@[simp] theorem fetched_mem (s : State) (n : Nat) : (s.fetched n).mem = s.mem := rfl
@[simp] theorem fetched_cfg (s : State) (n : Nat) : (s.fetched n).cfg = s.cfg := rfl
@[simp] theorem fetched_log (s : State) (n : Nat) : (s.fetched n).log = s.log := rfl
@[simp] theorem fetched_ir (s : State) (n : Nat) :
    (s.fetched n).ir = { op := s.mem.read s.pc.toNat, type := s.mem.read (s.pc.toNat + 1) } := rfl

/-- `pc` after the fetch of `n` bytes that fit in memory. -/
theorem fetched_pc {s : State} {n : Nat} (h : s.pc.toNat + n ≤ 256) : (s.fetched n).pc.toNat = s.pc.toNat + n :=
  ofNat9_toNat (by omega)

/-- The three ways the first two fetches end (R94, R95, R96). -/
theorem fetchInstr_cases (s : State) :
  (256 ≤ s.pc.toNat ∧ fetchInstr s = .endOfMemory) ∨
  (s.pc.toNat = 255 ∧
    fetchInstr s = .error (.uncaughtExecutionFault (.fetchOutOfBounds 256)) { s with pc := 256 }) ∨
  (s.pc.toNat ≤ 254 ∧
    fetchInstr s = fetchOperands (decodeHeader (s.mem.read s.pc.toNat) (s.mem.read (s.pc.toNat+1))) (s.fetched 2)) := by
  have hp : ∀ (p : Pc) k, p.toNat + k < 512 → (BitVec.ofNat 9 (p.toNat + k)).toNat = p.toNat + k := by
    intro p k h; rw [BitVec.toNat_ofNat]; exact Nat.mod_eq_of_lt h
  by_cases h : 256 ≤ s.pc.toNat
  · left; exact ⟨h, by simp [fetchInstr, fetchByte_end h]⟩
  · right
    by_cases h2 : s.pc.toNat = 255
    · left
      refine ⟨h2, ?_⟩
      have e : s.pc + 1 = 256 := by apply BitVec.eq_of_toNat_eq; rw [pc_succ (by omega), h2]; rfl
      simp only [fetchInstr, fetchByte_below (by omega : s.pc.toNat < 256), e]
      rw [fetchByte_end (by simp)]
      rfl
    · right
      refine ⟨by omega, ?_⟩
      have e1 := pc_succ (by omega : s.pc.toNat < 256)
      have e2 : s.pc + 1 + 1 = BitVec.ofNat 9 (s.pc.toNat + 2) := by
        apply BitVec.eq_of_toNat_eq; rw [pc_succ (by omega), e1, hp _ _ (by omega)]
      simp only [fetchInstr, fetchByte_below (by omega : s.pc.toNat < 256)]
      rw [fetchByte_below (by simp; omega)]
      simp only [e1, e2, State.latch, State.fetched]

/-- The first `n` bytes from `pc`, and the rest. -/
theorem bytesFromPc_split (s : State) (n : Nat) (h : s.pc.toNat + n ≤ 256) :
    s.bytesFromPc = (List.range n).map (fun k => s.mem.read (s.pc.toNat + k)) ++
      (List.range (256 - s.pc.toNat - n)).map (fun k => s.mem.read (s.pc.toNat + n + k)) := by
  unfold State.bytesFromPc
  have : memorySize - s.pc.toNat = n + (256 - s.pc.toNat - n) := by simp only [memorySize]; omega
  rw [this, List.range_add, List.map_append, List.map_map]
  congr 1
  simp [Function.comp_def, Nat.add_assoc]

/-- After `n` bytes, the next byte fetched (R95). -/
theorem fetched_fetchByte (s : State) (n) (h : s.pc.toNat + n < 256) :
    (s.fetched n).fetchByte = some (s.mem.read (s.pc.toNat + n), s.fetched (n+1)) := by
  have hp : (s.fetched n).pc.toNat = s.pc.toNat + n := by simp [State.fetched]; omega
  rw [fetchByte_below (by omega), hp]
  have e : (s.fetched n).pc + 1 = (s.fetched (n+1)).pc := by
    apply BitVec.eq_of_toNat_eq; rw [pc_succ (by omega), hp]; simp [State.fetched]; omega
  congr 2
  have : ∀ t : State, t.hi = s.hi → t.lo = s.lo → t.flags = s.flags → t.ir = (s.fetched n).ir → t.running = s.running → t.mem = s.mem → t.cfg = s.cfg → t.log = s.log → t.pc = (s.fetched (n+1)).pc → t = s.fetched (n+1) := by
    rintro ⟨⟩; simp [State.fetched]; intros; simp_all
  exact this _ rfl rfl rfl rfl rfl rfl rfl rfl e

/-- After the bytes up to the end of memory, the next fetch fails at 256 (R95). -/
theorem fetched_end (s : State) (n) (h : s.pc.toNat + n = 256) :
    (s.fetched n).fetchByte = none ∧
    (s.fetched n).fetchError = .uncaughtExecutionFault (.fetchOutOfBounds 256) ∧
    (s.fetched n).pc = 256 := by
  have hp : (s.fetched n).pc.toNat = 256 := by simp [State.fetched]; omega
  exact ⟨fetchByte_end (by omega), by simp [State.fetchError, hp], BitVec.eq_of_toNat_eq hp⟩

/-- The step's fetches and `decode` on the bytes from `pc` come to the same. -/
theorem fetchInstr_decode (s : State) :
  match decode s.bytesFromPc with
  | .ok (i, _) => s.pc.toNat + (encode i).length ≤ 256 ∧ fetchInstr s = .run i (s.fetched (encode i).length)
  | .error .truncated =>
    (256 ≤ s.pc.toNat ∧ fetchInstr s = .endOfMemory) ∨
    (s.pc.toNat < 256 ∧ ∃ n,
      fetchInstr s = .error (.uncaughtExecutionFault (.fetchOutOfBounds 256))
        (if s.pc.toNat = 255 then { s with pc := 256 } else s.fetched n) ∧
      (s.fetched n).pc = 256)
  | .error (.unknownOpcode op) =>
    s.pc.toNat ≤ 254 ∧ op = s.mem.read s.pc.toNat ∧ decodeHeader op (s.mem.read (s.pc.toNat+1)) = .badOpcode op ∧
    fetchInstr s = .error (.unknownOpcode op) (s.fetched 2)
  | .error (.unknownAddressingMode op ty) =>
    s.pc.toNat ≤ 254 ∧ op = s.mem.read s.pc.toNat ∧ ty = s.mem.read (s.pc.toNat+1) ∧
    decodeHeader op ty = .badMode op ty ∧
    fetchInstr s = .error (.unknownAddressingMode op ty) (s.fetched 2) := by
  rcases fetchInstr_cases s with ⟨h, hf⟩ | ⟨h, hf⟩ | ⟨h, hf⟩
  · have : s.bytesFromPc = [] := by unfold State.bytesFromPc; rw [show memorySize - s.pc.toNat = 0 by simp only [memorySize]; omega]; rfl
    rw [this]; exact .inl ⟨h, hf⟩
  · have : s.bytesFromPc = [s.mem.read 255] := by rw [bytesFromPc_split s 1 (by omega)]; simp [h]
    rw [this]; refine .inr ⟨by omega, 1, by rw [hf, if_pos h], (fetched_end s 1 (by omega)).2.2⟩
  · rw [bytesFromPc_split s 2 (by omega), hf]
    have hl := decodeHeader_law (s.mem.read s.pc.toNat) (s.mem.read (s.pc.toNat+1))
    change match decodeOperands (decodeHeader (s.mem.read s.pc.toNat) (s.mem.read (s.pc.toNat+1))) _ with | .ok (i, _) => _ | .error .truncated => _ | .error (.unknownOpcode op) => _ | .error (.unknownAddressingMode op ty) => _
    generalize hd : decodeHeader (s.mem.read s.pc.toNat) (s.mem.read (s.pc.toNat+1)) = H at hl ⊢
    cases hl with
    | zero i he hl => simp [decodeOperands, fetchOperands, he]; omega
    | badOpcode hl => simp [decodeOperands, fetchOperands, hd]; omega
    | badMode hl => simp [decodeOperands, fetchOperands, hd]; omega
    | one mk he hl =>
      by_cases h3 : s.pc.toNat = 254
      · simp [h3, decodeOperands, fetchOperands]
        obtain ⟨e1, e2, e3⟩ := fetched_end s 2 (by omega)
        exact ⟨2, by rw [e1, e2], e3⟩
      · rw [show 256 - s.pc.toNat - 2 = (256 - s.pc.toNat - 3) + 1 by omega, List.range_succ_eq_map]
        simp [decodeOperands, fetchOperands, he, fetched_fetchByte s 2 (by omega)]; omega
    | two mk he hl =>
      by_cases h3 : s.pc.toNat = 254
      · simp [h3, decodeOperands, fetchOperands]
        obtain ⟨e1, e2, e3⟩ := fetched_end s 2 (by omega)
        exact ⟨2, by rw [e1, e2], e3⟩
      · by_cases h4 : s.pc.toNat = 253
        · simp [h4, decodeOperands, fetchOperands, fetched_fetchByte s 2 (by omega)]
          obtain ⟨e1, e2, e3⟩ := fetched_end s 3 (by omega)
          exact ⟨3, by rw [e1, e2], e3⟩
        · rw [show 256 - s.pc.toNat - 2 = (256 - s.pc.toNat - 4) + 1 + 1 by omega, List.range_succ_eq_map, List.range_succ_eq_map]
          simp [decodeOperands, fetchOperands, he, fetched_fetchByte s 2 (by omega), fetched_fetchByte s 3 (by omega), Nat.add_assoc]; omega

end Sys2Proof.Machine
end

