-- ==== Sys2Proof/Laws/PerInstr.lean ====
section
/-! SUPPORT. Laws made instruction by instruction. -/

/-- The encoding of an instruction starts with an opcode and a type byte, and has the length those two give (R63, R71). -/
def Sys2Proof.Laws.EncodingHeader.Statement (i : Sys2Proof.Instr) : Prop :=
  match Sys2Proof.encode i with
  | op :: ty :: rest => rest.length + 2 = Sys2Proof.instrLength op ty
  | [_] => False
  | [] => False

namespace Sys2Proof.Laws.EncodingHeader

theorem nop (ty : Byte) : Statement (.nop ty) := rfl
theorem hlt (ty : Byte) : Statement (.hlt ty) := rfl
theorem intR (b : Byte) : Statement (.intR b) := rfl
theorem intM (b : Byte) : Statement (.intM b) := rfl
theorem intI (b : Byte) : Statement (.intI b) := rfl
theorem movRR (d s : Byte) : Statement (.movRR d s) := rfl
theorem movRM (d s : Byte) : Statement (.movRM d s) := rfl
theorem movMR (d s : Byte) : Statement (.movMR d s) := rfl
theorem movRI (d s : Byte) : Statement (.movRI d s) := rfl
theorem movMM (d s : Byte) : Statement (.movMM d s) := rfl
theorem movMI (d s : Byte) : Statement (.movMI d s) := rfl
theorem movMop (b : Byte) : Statement (.movMop b) := rfl
theorem addRR (d s : Byte) : Statement (.addRR d s) := rfl
theorem addRM (d s : Byte) : Statement (.addRM d s) := rfl
theorem addMR (d s : Byte) : Statement (.addMR d s) := rfl
theorem addRI (d s : Byte) : Statement (.addRI d s) := rfl
theorem addMM (d s : Byte) : Statement (.addMM d s) := rfl
theorem addMI (d s : Byte) : Statement (.addMI d s) := rfl
theorem subRR (d s : Byte) : Statement (.subRR d s) := rfl
theorem subRM (d s : Byte) : Statement (.subRM d s) := rfl
theorem subMR (d s : Byte) : Statement (.subMR d s) := rfl
theorem subRI (d s : Byte) : Statement (.subRI d s) := rfl
theorem subMM (d s : Byte) : Statement (.subMM d s) := rfl
theorem subMI (d s : Byte) : Statement (.subMI d s) := rfl
theorem andRR (d s : Byte) : Statement (.andRR d s) := rfl
theorem andRM (d s : Byte) : Statement (.andRM d s) := rfl
theorem andMR (d s : Byte) : Statement (.andMR d s) := rfl
theorem andRI (d s : Byte) : Statement (.andRI d s) := rfl
theorem andMM (d s : Byte) : Statement (.andMM d s) := rfl
theorem andMI (d s : Byte) : Statement (.andMI d s) := rfl
theorem orRR (d s : Byte) : Statement (.orRR d s) := rfl
theorem orRM (d s : Byte) : Statement (.orRM d s) := rfl
theorem orMR (d s : Byte) : Statement (.orMR d s) := rfl
theorem orRI (d s : Byte) : Statement (.orRI d s) := rfl
theorem orMM (d s : Byte) : Statement (.orMM d s) := rfl
theorem orMI (d s : Byte) : Statement (.orMI d s) := rfl
theorem xorRR (d s : Byte) : Statement (.xorRR d s) := rfl
theorem xorRM (d s : Byte) : Statement (.xorRM d s) := rfl
theorem xorMR (d s : Byte) : Statement (.xorMR d s) := rfl
theorem xorRI (d s : Byte) : Statement (.xorRI d s) := rfl
theorem xorMM (d s : Byte) : Statement (.xorMM d s) := rfl
theorem xorMI (d s : Byte) : Statement (.xorMI d s) := rfl
theorem notR (b : Byte) : Statement (.notR b) := rfl
theorem notM (b : Byte) : Statement (.notM b) := rfl
theorem jmpR (b : Byte) : Statement (.jmpR b) := rfl
theorem jmpM (b : Byte) : Statement (.jmpM b) := rfl
theorem jmpI (b : Byte) : Statement (.jmpI b) := rfl
theorem jzR (b : Byte) : Statement (.jzR b) := rfl
theorem jzM (b : Byte) : Statement (.jzM b) := rfl
theorem jzI (b : Byte) : Statement (.jzI b) := rfl
theorem jcR (b : Byte) : Statement (.jcR b) := rfl
theorem jcM (b : Byte) : Statement (.jcM b) := rfl
theorem jcI (b : Byte) : Statement (.jcI b) := rfl
theorem shlRR (d s : Byte) : Statement (.shlRR d s) := rfl
theorem shlRM (d s : Byte) : Statement (.shlRM d s) := rfl
theorem shlMR (d s : Byte) : Statement (.shlMR d s) := rfl
theorem shlRI (d s : Byte) : Statement (.shlRI d s) := rfl
theorem shlMM (d s : Byte) : Statement (.shlMM d s) := rfl
theorem shlMI (d s : Byte) : Statement (.shlMI d s) := rfl
theorem shrRR (d s : Byte) : Statement (.shrRR d s) := rfl
theorem shrRM (d s : Byte) : Statement (.shrRM d s) := rfl
theorem shrMR (d s : Byte) : Statement (.shrMR d s) := rfl
theorem shrRI (d s : Byte) : Statement (.shrRI d s) := rfl
theorem shrMM (d s : Byte) : Statement (.shrMM d s) := rfl
theorem shrMI (d s : Byte) : Statement (.shrMI d s) := rfl
theorem cmpRR (d s : Byte) : Statement (.cmpRR d s) := rfl
theorem cmpRM (d s : Byte) : Statement (.cmpRM d s) := rfl
theorem cmpMR (d s : Byte) : Statement (.cmpMR d s) := rfl
theorem cmpRI (d s : Byte) : Statement (.cmpRI d s) := rfl
theorem cmpMM (d s : Byte) : Statement (.cmpMM d s) := rfl
theorem cmpMI (d s : Byte) : Statement (.cmpMI d s) := rfl

end Sys2Proof.Laws.EncodingHeader
end

