-- ==== Sys2Proof/Tests/Slice0.lean ====
section
/-! SUPPORT. The model's own tests. Expected results are from the spec: the words from the tables of 30_encoding.md, the
steps from 95_test_vectors.md part 2 (or by hand from the rule named), the programs from its part 3. After them stand
the witnesses: for each statement with hypotheses, a concrete state and operands that meet all of them. -/

namespace Sys2Proof.Tests

open Sys2Proof Sys2Proof.Machine

/-! ### Helpers -/

/-- The state an outcome reaches. -/
def reached : Result → Option State
  | .next s => some s
  | .fault _ => none
  | .refused _ => none

/-- The flags in the order of the spec's vectors: C Z S O P. -/
def czsop (s : State) : List Bool := [s.flags.CF, s.flags.ZF, s.flags.SF, s.flags.OF, s.flags.PF]

/-- The reset state in the width mode `mop`. -/
def start (mop : Bool) : State := { State.reset with flags := { Flags.reset with MOP := mop } }

/-- A register set to a value. -/
def setReg (c : RegCode) (v : Int) (s : State) : State := s.writeReg c v

/-- One byte of memory set. -/
def poke (a : Nat) (b : Byte) (s : State) : State := s.storeBytes a [b]

/-- The program's bytes at `a`, and `pc` there. -/
def code (a : Pc) (bytes : List Byte) (s : State) : State := State.storeBytes { s with pc := a } a.toNat bytes

/-- ZF set. -/
def setZ (s : State) : State := { s with flags := { s.flags with ZF := true } }

/-- CF set. -/
def setC (s : State) : State := { s with flags := { s.flags with CF := true } }

/-- One step, seen at a register, the five flags and `pc`. -/
def seeReg (c : RegCode) (s : State) : Option (Byte × List Bool × Nat) :=
  (reached (step s)).map fun t => (t.readReg c, czsop t, t.pc.toNat)

/-- One step, seen at a byte of memory, the five flags and `pc`. -/
def seeMem (a : Nat) (s : State) : Option (Byte × List Bool × Nat) :=
  (reached (step s)).map fun t => (t.mem.read a, czsop t, t.pc.toNat)

/-- One step, seen at `pc` and the event before `on_state_changed`, if one was added. -/
def seeEvent (s : State) : Option (Nat × Option Event) :=
  (reached (step s)).map fun t =>
    (t.pc.toNat, match t.log with
      | _ :: e :: _ => some e
      | _ => none)

/-- An interrupt, error or halt event expected at `pc`. -/
def at_ (pc : Nat) (e : Event) : Option (Nat × Option Event) := some (pc, some e)

/-- No event expected. -/
def quiet (pc : Nat) : Option (Nat × Option Event) := some (pc, none)

/-! ### WellFormed refuses each ill-formed operand (R28, R68) -/

theorem test_wellFormed_mov :
    [Instr.movRR 0x00 0x01, .movRR 0x01 0x13, .movRM 0x13 0x40, .movMR 0x40 0x00, .movRI 0xFF 0x05].map WellFormed
      = [false, false, false, false, false] ∧
    [Instr.movRR 0x01 0x12, .movRM 0x12 0x00, .movMR 0xFF 0x01, .movRI 0x07 0x00, .movMM 0x00 0xFF,
      .movMI 0xFF 0x13].map WellFormed = [true, true, true, true, true, true] := by decide

theorem test_wellFormed_add :
    [Instr.addRR 0x00 0x01, .addRR 0x01 0x13, .addRM 0x13 0x40, .addMR 0x40 0x00, .addRI 0xFF 0x05].map WellFormed
      = [false, false, false, false, false] ∧
    [Instr.addRR 0x01 0x12, .addRM 0x12 0x00, .addMR 0xFF 0x01, .addRI 0x07 0x00, .addMM 0x00 0xFF,
      .addMI 0xFF 0x13].map WellFormed = [true, true, true, true, true, true] := by decide

theorem test_wellFormed_sub :
    [Instr.subRR 0x00 0x01, .subRR 0x01 0x13, .subRM 0x13 0x40, .subMR 0x40 0x00, .subRI 0xFF 0x05].map WellFormed
      = [false, false, false, false, false] ∧
    [Instr.subRR 0x01 0x12, .subRM 0x12 0x00, .subMR 0xFF 0x01, .subRI 0x07 0x00, .subMM 0x00 0xFF,
      .subMI 0xFF 0x13].map WellFormed = [true, true, true, true, true, true] := by decide

theorem test_wellFormed_and :
    [Instr.andRR 0x00 0x01, .andRR 0x01 0x13, .andRM 0x13 0x40, .andMR 0x40 0x00, .andRI 0xFF 0x05].map WellFormed
      = [false, false, false, false, false] ∧
    [Instr.andRR 0x01 0x12, .andRM 0x12 0x00, .andMR 0xFF 0x01, .andRI 0x07 0x00, .andMM 0x00 0xFF,
      .andMI 0xFF 0x13].map WellFormed = [true, true, true, true, true, true] := by decide

theorem test_wellFormed_or :
    [Instr.orRR 0x00 0x01, .orRR 0x01 0x13, .orRM 0x13 0x40, .orMR 0x40 0x00, .orRI 0xFF 0x05].map WellFormed
      = [false, false, false, false, false] ∧
    [Instr.orRR 0x01 0x12, .orRM 0x12 0x00, .orMR 0xFF 0x01, .orRI 0x07 0x00, .orMM 0x00 0xFF,
      .orMI 0xFF 0x13].map WellFormed = [true, true, true, true, true, true] := by decide

theorem test_wellFormed_xor :
    [Instr.xorRR 0x00 0x01, .xorRR 0x01 0x13, .xorRM 0x13 0x40, .xorMR 0x40 0x00, .xorRI 0xFF 0x05].map WellFormed
      = [false, false, false, false, false] ∧
    [Instr.xorRR 0x01 0x12, .xorRM 0x12 0x00, .xorMR 0xFF 0x01, .xorRI 0x07 0x00, .xorMM 0x00 0xFF,
      .xorMI 0xFF 0x13].map WellFormed = [true, true, true, true, true, true] := by decide

theorem test_wellFormed_shl :
    [Instr.shlRR 0x00 0x01, .shlRR 0x01 0x13, .shlRM 0x13 0x40, .shlMR 0x40 0x00, .shlRI 0xFF 0x05].map WellFormed
      = [false, false, false, false, false] ∧
    [Instr.shlRR 0x01 0x12, .shlRM 0x12 0x00, .shlMR 0xFF 0x01, .shlRI 0x07 0x00, .shlMM 0x00 0xFF,
      .shlMI 0xFF 0x13].map WellFormed = [true, true, true, true, true, true] := by decide

theorem test_wellFormed_shr :
    [Instr.shrRR 0x00 0x01, .shrRR 0x01 0x13, .shrRM 0x13 0x40, .shrMR 0x40 0x00, .shrRI 0xFF 0x05].map WellFormed
      = [false, false, false, false, false] ∧
    [Instr.shrRR 0x01 0x12, .shrRM 0x12 0x00, .shrMR 0xFF 0x01, .shrRI 0x07 0x00, .shrMM 0x00 0xFF,
      .shrMI 0xFF 0x13].map WellFormed = [true, true, true, true, true, true] := by decide

theorem test_wellFormed_cmp :
    [Instr.cmpRR 0x00 0x01, .cmpRR 0x01 0x13, .cmpRM 0x13 0x40, .cmpMR 0x40 0x00, .cmpRI 0xFF 0x05].map WellFormed
      = [false, false, false, false, false] ∧
    [Instr.cmpRR 0x01 0x12, .cmpRM 0x12 0x00, .cmpMR 0xFF 0x01, .cmpRI 0x07 0x00, .cmpMM 0x00 0xFF,
      .cmpMI 0xFF 0x13].map WellFormed = [true, true, true, true, true, true] := by decide

theorem test_wellFormed_one_operand :
    [Instr.intR 0x00, .intR 0x13, .notR 0x00, .notR 0x13, .jmpR 0x00, .jmpR 0x13, .jzR 0x00, .jzR 0x13, .jcR 0x00,
      .jcR 0x13].all (fun i => !WellFormed i) = true ∧
    [Instr.intR 0x01, .intM 0x00, .intI 0xFF, .notR 0x12, .notM 0x00, .jmpR 0x12, .jmpM 0xFF, .jmpI 0x00, .jzR 0x01,
      .jzM 0x00, .jzI 0xFF, .jcR 0x01, .jcM 0x00, .jcI 0xFF].all WellFormed = true := by decide

theorem test_wellFormed_no_register :
    [Instr.nop 0xFF, .hlt 0xFF, .movMop 0x00].all WellFormed = true := by decide

/-! ### Decoding: words written out from R64 to R70, one for each constructor -/

theorem test_decode_nop_hlt :
    decode [0x00, 0x00] = .ok (.nop 0x00, []) ∧ decode [0x00, 0x5A, 0x11] = .ok (.nop 0x5A, [0x11]) ∧
    decode [0x01, 0x00] = .ok (.hlt 0x00, []) := ⟨rfl, rfl, rfl⟩

theorem test_decode_mov :
    decode [0x10, 0x00, 0x07, 0x12] = .ok (.movRR 0x07 0x12, []) ∧
    decode [0x10, 0x01, 0x12, 0x40] = .ok (.movRM 0x12 0x40, []) ∧
    decode [0x10, 0x02, 0x41, 0x04] = .ok (.movMR 0x41 0x04, []) ∧
    decode [0x10, 0x03, 0x01, 0x05] = .ok (.movRI 0x01 0x05, []) ∧
    decode [0x10, 0x05, 0x43, 0x42] = .ok (.movMM 0x43 0x42, []) ∧
    decode [0x10, 0x06, 0x44, 0xFF] = .ok (.movMI 0x44 0xFF, []) :=
  ⟨rfl, rfl, rfl, rfl, rfl, rfl⟩

theorem test_decode_add :
    decode [0x11, 0x00, 0x07, 0x12] = .ok (.addRR 0x07 0x12, []) ∧
    decode [0x11, 0x01, 0x12, 0x40] = .ok (.addRM 0x12 0x40, []) ∧
    decode [0x11, 0x02, 0x41, 0x04] = .ok (.addMR 0x41 0x04, []) ∧
    decode [0x11, 0x03, 0x01, 0x05] = .ok (.addRI 0x01 0x05, []) ∧
    decode [0x11, 0x05, 0x43, 0x42] = .ok (.addMM 0x43 0x42, []) ∧
    decode [0x11, 0x06, 0x44, 0xFF] = .ok (.addMI 0x44 0xFF, []) :=
  ⟨rfl, rfl, rfl, rfl, rfl, rfl⟩

theorem test_decode_sub :
    decode [0x12, 0x00, 0x07, 0x12] = .ok (.subRR 0x07 0x12, []) ∧
    decode [0x12, 0x01, 0x12, 0x40] = .ok (.subRM 0x12 0x40, []) ∧
    decode [0x12, 0x02, 0x41, 0x04] = .ok (.subMR 0x41 0x04, []) ∧
    decode [0x12, 0x03, 0x01, 0x05] = .ok (.subRI 0x01 0x05, []) ∧
    decode [0x12, 0x05, 0x43, 0x42] = .ok (.subMM 0x43 0x42, []) ∧
    decode [0x12, 0x06, 0x44, 0xFF] = .ok (.subMI 0x44 0xFF, []) :=
  ⟨rfl, rfl, rfl, rfl, rfl, rfl⟩

theorem test_decode_and :
    decode [0x13, 0x00, 0x07, 0x12] = .ok (.andRR 0x07 0x12, []) ∧
    decode [0x13, 0x01, 0x12, 0x40] = .ok (.andRM 0x12 0x40, []) ∧
    decode [0x13, 0x02, 0x41, 0x04] = .ok (.andMR 0x41 0x04, []) ∧
    decode [0x13, 0x03, 0x01, 0x05] = .ok (.andRI 0x01 0x05, []) ∧
    decode [0x13, 0x05, 0x43, 0x42] = .ok (.andMM 0x43 0x42, []) ∧
    decode [0x13, 0x06, 0x44, 0xFF] = .ok (.andMI 0x44 0xFF, []) :=
  ⟨rfl, rfl, rfl, rfl, rfl, rfl⟩

theorem test_decode_or :
    decode [0x14, 0x00, 0x07, 0x12] = .ok (.orRR 0x07 0x12, []) ∧
    decode [0x14, 0x01, 0x12, 0x40] = .ok (.orRM 0x12 0x40, []) ∧
    decode [0x14, 0x02, 0x41, 0x04] = .ok (.orMR 0x41 0x04, []) ∧
    decode [0x14, 0x03, 0x01, 0x05] = .ok (.orRI 0x01 0x05, []) ∧
    decode [0x14, 0x05, 0x43, 0x42] = .ok (.orMM 0x43 0x42, []) ∧
    decode [0x14, 0x06, 0x44, 0xFF] = .ok (.orMI 0x44 0xFF, []) :=
  ⟨rfl, rfl, rfl, rfl, rfl, rfl⟩

theorem test_decode_xor :
    decode [0x15, 0x00, 0x07, 0x12] = .ok (.xorRR 0x07 0x12, []) ∧
    decode [0x15, 0x01, 0x12, 0x40] = .ok (.xorRM 0x12 0x40, []) ∧
    decode [0x15, 0x02, 0x41, 0x04] = .ok (.xorMR 0x41 0x04, []) ∧
    decode [0x15, 0x03, 0x01, 0x05] = .ok (.xorRI 0x01 0x05, []) ∧
    decode [0x15, 0x05, 0x43, 0x42] = .ok (.xorMM 0x43 0x42, []) ∧
    decode [0x15, 0x06, 0x44, 0xFF] = .ok (.xorMI 0x44 0xFF, []) :=
  ⟨rfl, rfl, rfl, rfl, rfl, rfl⟩

theorem test_decode_shl :
    decode [0x1A, 0x00, 0x07, 0x12] = .ok (.shlRR 0x07 0x12, []) ∧
    decode [0x1A, 0x01, 0x12, 0x40] = .ok (.shlRM 0x12 0x40, []) ∧
    decode [0x1A, 0x02, 0x41, 0x04] = .ok (.shlMR 0x41 0x04, []) ∧
    decode [0x1A, 0x03, 0x01, 0x05] = .ok (.shlRI 0x01 0x05, []) ∧
    decode [0x1A, 0x05, 0x43, 0x42] = .ok (.shlMM 0x43 0x42, []) ∧
    decode [0x1A, 0x06, 0x44, 0xFF] = .ok (.shlMI 0x44 0xFF, []) :=
  ⟨rfl, rfl, rfl, rfl, rfl, rfl⟩

theorem test_decode_shr :
    decode [0x1B, 0x00, 0x07, 0x12] = .ok (.shrRR 0x07 0x12, []) ∧
    decode [0x1B, 0x01, 0x12, 0x40] = .ok (.shrRM 0x12 0x40, []) ∧
    decode [0x1B, 0x02, 0x41, 0x04] = .ok (.shrMR 0x41 0x04, []) ∧
    decode [0x1B, 0x03, 0x01, 0x05] = .ok (.shrRI 0x01 0x05, []) ∧
    decode [0x1B, 0x05, 0x43, 0x42] = .ok (.shrMM 0x43 0x42, []) ∧
    decode [0x1B, 0x06, 0x44, 0xFF] = .ok (.shrMI 0x44 0xFF, []) :=
  ⟨rfl, rfl, rfl, rfl, rfl, rfl⟩

theorem test_decode_cmp :
    decode [0x1C, 0x00, 0x07, 0x12] = .ok (.cmpRR 0x07 0x12, []) ∧
    decode [0x1C, 0x01, 0x12, 0x40] = .ok (.cmpRM 0x12 0x40, []) ∧
    decode [0x1C, 0x02, 0x41, 0x04] = .ok (.cmpMR 0x41 0x04, []) ∧
    decode [0x1C, 0x03, 0x01, 0x05] = .ok (.cmpRI 0x01 0x05, []) ∧
    decode [0x1C, 0x05, 0x43, 0x42] = .ok (.cmpMM 0x43 0x42, []) ∧
    decode [0x1C, 0x06, 0x44, 0xFF] = .ok (.cmpMI 0x44 0xFF, []) :=
  ⟨rfl, rfl, rfl, rfl, rfl, rfl⟩

theorem test_decode_int :
    decode [0x02, 0x00, 0x0A] = .ok (.intR 0x0A, []) ∧ decode [0x02, 0x01, 0x20] = .ok (.intM 0x20, []) ∧ decode [0x02, 0x03, 0x10] = .ok (.intI 0x10, []) :=
  ⟨rfl, rfl, rfl⟩

theorem test_decode_jmp :
    decode [0x17, 0x00, 0x0A] = .ok (.jmpR 0x0A, []) ∧ decode [0x17, 0x01, 0x20] = .ok (.jmpM 0x20, []) ∧ decode [0x17, 0x03, 0x10] = .ok (.jmpI 0x10, []) :=
  ⟨rfl, rfl, rfl⟩

theorem test_decode_jz :
    decode [0x18, 0x00, 0x0A] = .ok (.jzR 0x0A, []) ∧ decode [0x18, 0x01, 0x20] = .ok (.jzM 0x20, []) ∧ decode [0x18, 0x03, 0x10] = .ok (.jzI 0x10, []) :=
  ⟨rfl, rfl, rfl⟩

theorem test_decode_jc :
    decode [0x19, 0x00, 0x0A] = .ok (.jcR 0x0A, []) ∧ decode [0x19, 0x01, 0x20] = .ok (.jcM 0x20, []) ∧ decode [0x19, 0x03, 0x10] = .ok (.jcI 0x10, []) :=
  ⟨rfl, rfl, rfl⟩

theorem test_decode_not_movMop :
    decode [0x16, 0x00, 0x08] = .ok (.notR 0x08, []) ∧ decode [0x16, 0x01, 0x60] = .ok (.notM 0x60, []) ∧
    decode [0x10, 0x04, 0x01] = .ok (.movMop 0x01, []) := ⟨rfl, rfl, rfl⟩

/-- 95_test_vectors.md 2.3: rejections by name. -/
theorem test_decode_rejects :
    decode [0x02, 0x02, 0x00] = .error (.unknownAddressingMode 0x02 0x02) ∧
    decode [0x10, 0x07, 0x00, 0x00] = .error (.unknownAddressingMode 0x10 0x07) ∧
    decode [0x11, 0x04, 0x01, 0x02] = .error (.unknownAddressingMode 0x11 0x04) ∧
    decode [0x16, 0x03, 0x05] = .error (.unknownAddressingMode 0x16 0x03) ∧
    decode [0x17, 0x02, 0x40] = .error (.unknownAddressingMode 0x17 0x02) ∧
    decode [0x03, 0x00] = .error (.unknownOpcode 0x03) ∧ decode [0x0F, 0x00] = .error (.unknownOpcode 0x0F) ∧
    decode [0x1D, 0x00] = .error (.unknownOpcode 0x1D) ∧ decode [0xFF, 0x00] = .error (.unknownOpcode 0xFF) ∧
    decode [0x10, 0x03, 0x01] = .error .truncated ∧ decode [0x10] = .error .truncated :=
  ⟨rfl, rfl, rfl, rfl, rfl, rfl, rfl, rfl, rfl, rfl, rfl⟩

/-- The table's `match` of `MOV`'s REG_REG row is 0x1000, of `NOT`'s MEM row 0x1601; 0x1603 is no row. -/
theorem test_decodeTableWord :
    decodeTableWord 32 0x02011000 = some (.movRR 0x01 0x02) ∧ decodeTableWord 24 0x601601 = some (.notM 0x60) ∧
    decodeTableWord 16 0x0000 = some (.nop 0x00) ∧ decodeTableWord 24 0x051603 = none := ⟨rfl, rfl, rfl, rfl⟩

/-- The word placed is the one the next step fetches: `MOV AX,#5` right after reset. -/
theorem test_withFetchWord :
    (seeReg 0x01 (State.reset.withFetchWord 32 0x05011003)).map (fun x => (x.1, x.2.2)) = some (0x05, 4) := by decide

/-- At 253 four bytes do not fit, so the word goes to 0. -/
theorem test_withFetchWord_end :
    (seeReg 0x01 (State.withFetchWord { State.reset with pc := 253 } 32 0x05011003)).map (fun x => (x.1, x.2.2))
      = some (0x05, 4) := by decide

/-! ### Register file and Flag Unit (95_test_vectors.md 2.1, 2.2) -/

theorem test_register_write :
    (State.reset.writeReg 0x01 0x1FE).readReg 0x01 = 0xFE ∧ (State.reset.writeReg 0x01 0x1FE).readReg 0x07 = 0xF ∧
    (State.reset.writeReg 0x01 (-256)).readReg 0x01 = 0x00 ∧
    ((setReg 0x01 0x5A State.reset).writeReg 0x07 0x1B).readReg 0x01 = 0xBA ∧
    ((setReg 0x01 0x5A State.reset).writeReg 0x08 (-2)).readReg 0x01 = 0x5E ∧
    ((State.reset.writeReg 0x11 0x3).writeReg 0x12 0xC).readReg 0x06 = 0x3C := by decide

theorem test_register_invalid :
    (setReg 0x01 0x5A State.reset).readPort 0x00 = (0, true) ∧ (setReg 0x01 0x5A State.reset).readPort 0xFF = (0, true) ∧
    (setReg 0x01 0x5A State.reset).writeReg 0x13 5 = setReg 0x01 0x5A State.reset := by decide

/-- Flags derived from an integer result in a width mode. -/
def derived (r : Int) (mop : Bool) : List Bool :=
  let f := flagUnit r mop Flags.reset
  [f.CF, f.ZF, f.SF, f.OF, f.PF]

theorem test_flag_unit :
    derived (-255) false = [true, false, false, true, false] ∧
    derived (-255) true = [true, false, false, true, false] ∧
    derived (-2) false = [true, false, true, true, false] ∧
    derived (-16) false = [true, false, true, true, true] ∧
    derived (-16) true = [true, true, false, true, true] ∧
    derived (300) false = [true, false, false, true, false] ∧
    derived (32640) false = [true, false, true, true, false] ∧
    derived (32640) true = [true, true, false, true, true] ∧
    derived (12) true = [false, false, true, false, true] ∧
    derived (3) true = [false, false, false, false, true] := by decide

/-! ### One step (95_test_vectors.md 2.4 to 2.8; a line marked "by hand" is computed from the rule) -/

theorem test_step_nop : seeEvent (code 0x10 [0x00, 0x00] State.reset) = quiet 0x12 := by decide

theorem test_step_hlt :
    (reached (step (code 0x10 [0x01, 0x00] { State.reset with running := true }))).map
      (fun t => (t.pc.toNat, t.running, t.log.length, t.log.any (fun e => decide (e = .halted .halt))))
      = some (0x12, false, 2, true) := by decide

theorem test_step_int :
    seeEvent (code 0 [0x02, 0x03, 0x01] (setReg 0x01 0x41 State.reset)) = at_ 3 (.interrupt 1 0x41) ∧
    seeEvent (code 0 [0x02, 0x00, 0x01] (setReg 0x01 0x05 State.reset)) = at_ 3 (.error (.unknownInterrupt 0x05)) ∧
    seeEvent (code 0 [0x02, 0x01, 0x20] (setReg 0x01 0x99 State.reset)) = at_ 3 (.interrupt 0 0x99) ∧
    seeEvent (code 0 [0x02, 0x00, 0x13] State.reset) = at_ 3 (.error (.unknownRegister 0x13)) := by decide

theorem test_step_mov :
    seeReg 0x01 (code 0 [0x10, 0x03, 0x01, 0x05] (start true)) = some (0x05, [false, false, false, false, false], 4) ∧
    seeReg 0x01 (code 0 [0x10, 0x00, 0x01, 0x02] (setReg 0x02 0x3C (start true))) = some (0x3C, [false, false, false, false, false], 4) ∧
    seeReg 0x03 (code 0 [0x10, 0x01, 0x03, 0x40] (poke 0x40 0x77 (start true))) = some (0x77, [false, false, false, false, false], 4) ∧
    seeMem 0x41 (code 0 [0x10, 0x02, 0x41, 0x04] (setReg 0x04 0x9E (start true))) = some (0x9E, [false, false, false, false, false], 4) ∧
    seeMem 0x43 (code 0 [0x10, 0x05, 0x43, 0x42] (poke 0x42 0x12 (start true))) = some (0x12, [false, false, false, false, false], 4) ∧
    seeMem 0x44 (code 0 [0x10, 0x06, 0x44, 0xFF] (start true)) = some (0xFF, [false, false, false, false, false], 4) :=
  ⟨by decide, by decide, by decide, by decide, by decide, by decide⟩

theorem test_step_mov_halves :
    seeReg 0x01 (code 0 [0x10, 0x00, 0x07, 0x01] (setReg 0x01 0x5A (start true))) = some (0xAA, [false, false, false, false, false], 4) ∧
    seeReg 0x02 (code 0 [0x10, 0x00, 0x02, 0x08] (setReg 0x01 0x5A (start true))) = some (0x0A, [false, false, false, false, false], 4) ∧
    seeReg 0x01 (code 0 [0x10, 0x03, 0x08, 0x1F] (start true)) = some (0x0F, [false, false, false, false, false], 4) ∧
    seeReg 0x01 (code 0 [0x10, 0x03, 0x01, 0x00] (setZ  (setReg 0x01 0x01 (start true)))) = some (0x00, [false, true, false, false, false], 4) :=
  ⟨by decide, by decide, by decide, by decide⟩

theorem test_step_mov_mop :
    (reached (step (code 0 [0x10, 0x04, 0x00] (start true)))).map (fun t => (t.flags.MOP, t.pc.toNat))
      = some (false, 3) ∧
    (reached (step (code 0 [0x10, 0x04, 0x07] (start false)))).map (fun t => (t.flags.MOP, t.pc.toNat))
      = some (true, 3) := by decide

/-- R100: dest is checked first, and nothing is written. -/
theorem test_step_mov_invalid :
    seeEvent (code 0 [0x10, 0x00, 0x01, 0x14] State.reset) = at_ 4 (.error (.unknownRegister 0x14)) ∧
    seeEvent (code 0 [0x10, 0x00, 0x00, 0x14] State.reset) = at_ 4 (.error (.unknownRegister 0x00)) := by decide

/-- R100 under `READ_ZERO`, by hand: an invalid src reads 0 and the instruction goes on. -/
theorem test_step_mov_readZero :
    seeReg 0x01 (code 0 [0x10, 0x00, 0x01, 0x14]
      { setReg 0x01 0x5A State.reset with cfg := { Config.spec with badReg := .readZero } })
      = some (0x00, [false, false, false, false, false], 4) := by decide

theorem test_step_add :
    seeReg 0x01 (code 0 [0x11, 0x03, 0x01, 0x01] (setReg 0x01 0xFF (start false))) = some (0x00, [true, true, false, true, true], 4) ∧
    seeReg 0x01 (code 0 [0x11, 0x03, 0x01, 0x00] (setReg 0x01 0x20 (start true))) = some (0x20, [true, true, false, true, true], 4) ∧
    seeReg 0x01 (code 0 [0x11, 0x00, 0x08, 0x01] (setReg 0x01 0x1F (start false))) = some (0x1E, [false, false, false, false, true], 4) ∧
    seeMem 0x40 (code 0 [0x11, 0x05, 0x40, 0x41] (poke 0x41 0x80 (poke 0x40 0x80 (start false)))) = some (0x00, [true, true, false, true, true], 4) :=
  ⟨by decide, by decide, by decide, by decide⟩

/-- The first line is the ADD of 95_test_vectors.md P3, the others are by hand. -/
theorem test_step_add_memory :
    seeReg 0x01 (code 0 [0x11, 0x01, 0x01, 0x41] (poke 0x41 0x64 (setReg 0x01 0xC8 (start false)))) = some (0x2C, [true, false, false, true, false], 4) ∧
    seeMem 0x40 (code 0 [0x11, 0x02, 0x40, 0x01] (poke 0x40 0x05 (setReg 0x01 0x03 (start false)))) = some (0x08, [false, false, false, false, false], 4) ∧
    seeMem 0x40 (code 0 [0x11, 0x06, 0x40, 0x03] (poke 0x40 0x05 (start true))) = some (0x08, [false, false, true, false, false], 4) :=
  ⟨by decide, by decide, by decide⟩

theorem test_step_sub :
    seeReg 0x01 (code 0 [0x12, 0x03, 0x01, 0x05] (setReg 0x01 0x03 (start false))) = some (0xFE, [true, false, true, true, false], 4) ∧
    seeReg 0x08 (code 0 [0x12, 0x03, 0x08, 0x05] (setReg 0x08 0x3 (start true))) = some (0x0E, [true, false, true, true, false], 4) ∧
    seeReg 0x01 (code 0 [0x12, 0x00, 0x01, 0x01] (setReg 0x01 0x42 (start false))) = some (0x00, [false, true, false, false, true], 4) ∧
    seeReg 0x01 (code 0 [0x12, 0x03, 0x01, 0x01] (setReg 0x01 0x30 (start true))) = some (0x2F, [true, false, true, true, true], 4) :=
  ⟨by decide, by decide, by decide, by decide⟩

/-- By hand: the dest operand is the minuend in every mode (R134). -/
theorem test_step_sub_memory :
    seeReg 0x01 (code 0 [0x12, 0x01, 0x01, 0x40] (poke 0x40 0x02 (setReg 0x01 0x09 (start false)))) = some (0x07, [false, false, false, false, false], 4) ∧
    seeMem 0x40 (code 0 [0x12, 0x02, 0x40, 0x01] (poke 0x40 0x09 (setReg 0x01 0x02 (start false)))) = some (0x07, [false, false, false, false, false], 4) ∧
    seeMem 0x40 (code 0 [0x12, 0x05, 0x40, 0x41] (poke 0x41 0x02 (poke 0x40 0x09 (start false)))) = some (0x07, [false, false, false, false, false], 4) ∧
    seeMem 0x40 (code 0 [0x12, 0x06, 0x40, 0x02] (poke 0x40 0x09 (start false))) = some (0x07, [false, false, false, false, false], 4) :=
  ⟨by decide, by decide, by decide, by decide⟩

/-- The first two lines are vectors, the others are by hand. -/
theorem test_step_and :
    seeReg 0x01 (code 0 [0x13, 0x03, 0x01, 0x3C] (setReg 0x01 0xF0 (start false))) = some (0x30, [false, false, false, false, true], 4) ∧
    seeReg 0x01 (code 0 [0x13, 0x03, 0x01, 0xFF] (setReg 0x01 0xF0 (start true))) = some (0xF0, [true, true, false, true, true], 4) ∧
    seeReg 0x01 (code 0 [0x13, 0x00, 0x01, 0x02] (setReg 0x02 0x0A (setReg 0x01 0x0C (start false)))) = some (0x08, [false, false, false, false, false], 4) ∧
    seeReg 0x01 (code 0 [0x13, 0x01, 0x01, 0x40] (poke 0x40 0x0A (setReg 0x01 0x0C (start false)))) = some (0x08, [false, false, false, false, false], 4) ∧
    seeMem 0x40 (code 0 [0x13, 0x02, 0x40, 0x01] (poke 0x40 0x0A (setReg 0x01 0x0C (start false)))) = some (0x08, [false, false, false, false, false], 4) ∧
    seeMem 0x40 (code 0 [0x13, 0x05, 0x40, 0x41] (poke 0x41 0x0A (poke 0x40 0x0C (start false)))) = some (0x08, [false, false, false, false, false], 4) ∧
    seeMem 0x40 (code 0 [0x13, 0x06, 0x40, 0x0A] (poke 0x40 0x0C (start false))) = some (0x08, [false, false, false, false, false], 4) :=
  ⟨by decide, by decide, by decide, by decide, by decide, by decide, by decide⟩

/-- The first two lines are vectors, the others are by hand. -/
theorem test_step_or :
    seeReg 0x08 (code 0 [0x14, 0x03, 0x08, 0x0A] (setReg 0x08 0x5 (start true))) = some (0x0F, [false, false, true, false, true], 4) ∧
    seeMem 0x50 (code 0 [0x14, 0x06, 0x50, 0x80] (poke 0x50 0x01 (start false))) = some (0x81, [false, false, true, false, true], 4) ∧
    seeReg 0x01 (code 0 [0x14, 0x00, 0x01, 0x02] (setReg 0x02 0x0A (setReg 0x01 0x0C (start false)))) = some (0x0E, [false, false, false, false, false], 4) ∧
    seeReg 0x01 (code 0 [0x14, 0x01, 0x01, 0x40] (poke 0x40 0x0A (setReg 0x01 0x0C (start false)))) = some (0x0E, [false, false, false, false, false], 4) ∧
    seeMem 0x40 (code 0 [0x14, 0x02, 0x40, 0x01] (poke 0x40 0x0A (setReg 0x01 0x0C (start false)))) = some (0x0E, [false, false, false, false, false], 4) ∧
    seeMem 0x40 (code 0 [0x14, 0x05, 0x40, 0x41] (poke 0x41 0x0A (poke 0x40 0x0C (start false)))) = some (0x0E, [false, false, false, false, false], 4) :=
  ⟨by decide, by decide, by decide, by decide, by decide, by decide⟩

/-- The first two lines are vectors, the others are by hand. -/
theorem test_step_xor :
    seeReg 0x01 (code 0 [0x15, 0x00, 0x01, 0x01] (setReg 0x01 0x3C (start false))) = some (0x00, [false, true, false, false, true], 4) ∧
    seeReg 0x01 (code 0 [0x15, 0x03, 0x01, 0x0F] (setReg 0x01 0xFF (start false))) = some (0xF0, [false, false, true, false, true], 4) ∧
    seeReg 0x01 (code 0 [0x15, 0x01, 0x01, 0x40] (poke 0x40 0x0A (setReg 0x01 0x0C (start false)))) = some (0x06, [false, false, false, false, true], 4) ∧
    seeMem 0x40 (code 0 [0x15, 0x02, 0x40, 0x01] (poke 0x40 0x0A (setReg 0x01 0x0C (start false)))) = some (0x06, [false, false, false, false, true], 4) ∧
    seeMem 0x40 (code 0 [0x15, 0x05, 0x40, 0x41] (poke 0x41 0x0A (poke 0x40 0x0C (start false)))) = some (0x06, [false, false, false, false, true], 4) ∧
    seeMem 0x40 (code 0 [0x15, 0x06, 0x40, 0x0A] (poke 0x40 0x0C (start false))) = some (0x06, [false, false, false, false, true], 4) :=
  ⟨by decide, by decide, by decide, by decide, by decide, by decide⟩

theorem test_step_not :
    seeReg 0x01 (code 0 [0x16, 0x00, 0x01] (setReg 0x01 0x0F (start false))) = some (0xF0, [true, false, true, true, true], 3) ∧
    seeReg 0x08 (code 0 [0x16, 0x00, 0x08] (setReg 0x08 0x3 (start true))) = some (0x0C, [true, false, true, true, true], 3) ∧
    seeMem 0x60 (code 0 [0x16, 0x01, 0x60] (poke 0x60 0xAA (start false))) = some (0x55, [true, false, false, true, true], 3) :=
  ⟨by decide, by decide, by decide⟩

theorem test_step_not_zext8 :
    seeReg 0x01 (code 0 [0x16, 0x00, 0x01]
      { setReg 0x01 0x0F (start false) with cfg := { Config.spec with notResult := .zext8 } })
      = some (0xF0, [false, false, true, false, true], 3) := by decide

theorem test_step_shl :
    seeReg 0x01 (code 0 [0x1A, 0x03, 0x01, 0x01] (setReg 0x01 0x81 (start false))) = some (0x02, [true, false, false, true, false], 4) ∧
    seeReg 0x01 (code 0 [0x1A, 0x03, 0x01, 0x09] (setReg 0x01 0x01 (start false))) = some (0x02, [false, false, false, false, false], 4) ∧
    seeReg 0x01 (code 0 [0x1A, 0x03, 0x01, 0x08] (setReg 0x01 0x01 (start false))) = some (0x01, [false, false, false, false, false], 4) ∧
    seeReg 0x08 (code 0 [0x1A, 0x03, 0x08, 0x01] (setReg 0x08 0x8 (start true))) = some (0x00, [true, true, false, true, true], 4) ∧
    seeReg 0x01 (code 0 [0x1A, 0x03, 0x01, 0x07] (setReg 0x01 0xFF (start false))) = some (0x80, [true, false, true, true, false], 4) :=
  ⟨by decide, by decide, by decide, by decide, by decide⟩

/-- By hand. -/
theorem test_step_shl_modes :
    seeReg 0x01 (code 0 [0x1A, 0x00, 0x01, 0x02] (setReg 0x02 0x2 (setReg 0x01 0x01 (start false)))) = some (0x04, [false, false, false, false, false], 4) ∧
    seeReg 0x01 (code 0 [0x1A, 0x01, 0x01, 0x40] (poke 0x40 0x02 (setReg 0x01 0x01 (start false)))) = some (0x04, [false, false, false, false, false], 4) ∧
    seeMem 0x40 (code 0 [0x1A, 0x02, 0x40, 0x01] (poke 0x40 0x01 (setReg 0x01 0x02 (start false)))) = some (0x04, [false, false, false, false, false], 4) ∧
    seeMem 0x40 (code 0 [0x1A, 0x05, 0x40, 0x41] (poke 0x41 0x02 (poke 0x40 0x01 (start false)))) = some (0x04, [false, false, false, false, false], 4) ∧
    seeMem 0x40 (code 0 [0x1A, 0x06, 0x40, 0x02] (poke 0x40 0x01 (start false))) = some (0x04, [false, false, false, false, false], 4) :=
  ⟨by decide, by decide, by decide, by decide, by decide⟩

theorem test_step_shr :
    seeReg 0x01 (code 0 [0x1B, 0x03, 0x01, 0x01] (setReg 0x01 0x81 (start false))) = some (0x40, [false, false, false, false, false], 4) ∧
    seeReg 0x01 (code 0 [0x1B, 0x03, 0x01, 0x00] (setReg 0x01 0xFF (start true))) = some (0xFF, [true, false, true, true, true], 4) ∧
    seeReg 0x01 (code 0 [0x1B, 0x00, 0x01, 0x02] (setReg 0x02 0x0F (setReg 0x01 0x80 (start false)))) = some (0x01, [false, false, false, false, false], 4) :=
  ⟨by decide, by decide, by decide⟩

/-- By hand. -/
theorem test_step_shr_modes :
    seeReg 0x01 (code 0 [0x1B, 0x01, 0x01, 0x40] (poke 0x40 0x02 (setReg 0x01 0x10 (start false)))) = some (0x04, [false, false, false, false, false], 4) ∧
    seeMem 0x40 (code 0 [0x1B, 0x02, 0x40, 0x01] (poke 0x40 0x10 (setReg 0x01 0x02 (start false)))) = some (0x04, [false, false, false, false, false], 4) ∧
    seeMem 0x40 (code 0 [0x1B, 0x05, 0x40, 0x41] (poke 0x41 0x02 (poke 0x40 0x10 (start false)))) = some (0x04, [false, false, false, false, false], 4) ∧
    seeMem 0x40 (code 0 [0x1B, 0x06, 0x40, 0x02] (poke 0x40 0x10 (start false))) = some (0x04, [false, false, false, false, false], 4) :=
  ⟨by decide, by decide, by decide, by decide⟩

theorem test_step_cmp :
    seeReg 0x01 (code 0 [0x1C, 0x03, 0x01, 0x05] (setReg 0x01 0x05 (start false))) = some (0x05, [false, true, false, false, true], 4) ∧
    seeReg 0x01 (code 0 [0x1C, 0x03, 0x01, 0x05] (setReg 0x01 0x05 (start true))) = some (0x05, [false, true, false, false, true], 4) ∧
    seeReg 0x01 (code 0 [0x1C, 0x03, 0x01, 0x01] (setReg 0x01 0x30 (start true))) = some (0x30, [true, false, true, true, true], 4) ∧
    seeMem 0x70 (code 0 [0x1C, 0x06, 0x70, 0x20] (poke 0x70 0x10 (start false))) = some (0x10, [true, false, true, true, true], 4) :=
  ⟨by decide, by decide, by decide, by decide⟩

/-- By hand: the dest operand is the minuend in every mode (R141). -/
theorem test_step_cmp_modes :
    seeReg 0x01 (code 0 [0x1C, 0x00, 0x01, 0x02] (setReg 0x02 0x05 (setReg 0x01 0x03 (start false)))) = some (0x03, [true, false, true, true, false], 4) ∧
    seeReg 0x01 (code 0 [0x1C, 0x01, 0x01, 0x40] (poke 0x40 0x05 (setReg 0x01 0x03 (start false)))) = some (0x03, [true, false, true, true, false], 4) ∧
    seeMem 0x40 (code 0 [0x1C, 0x02, 0x40, 0x01] (poke 0x40 0x03 (setReg 0x01 0x05 (start false)))) = some (0x03, [true, false, true, true, false], 4) ∧
    seeMem 0x40 (code 0 [0x1C, 0x05, 0x40, 0x41] (poke 0x41 0x05 (poke 0x40 0x03 (start false)))) = some (0x03, [true, false, true, true, false], 4) :=
  ⟨by decide, by decide, by decide, by decide⟩

theorem test_step_alu_abandoned :
    seeEvent (code 0 [0x11, 0x00, 0x01, 0x13] State.reset) = at_ 4 (.error (.unknownRegister 0x13)) ∧
    seeEvent (code 0 [0x11, 0x04, 0x01, 0x02] State.reset) = at_ 2 (.error (.unknownAddressingMode 0x11 0x04)) ∧
    seeEvent (code 0 [0x16, 0x03, 0x05] State.reset) = at_ 2 (.error (.unknownAddressingMode 0x16 0x03)) := by decide

theorem test_step_jmp :
    seeEvent (code 0 [0x17, 0x03, 0x40] State.reset) = quiet 0x40 ∧
    seeEvent (code 0 [0x17, 0x00, 0x01] (setReg 0x01 0x88 State.reset)) = quiet 0x88 ∧
    seeEvent (code 0 [0x17, 0x00, 0x08] (setReg 0x01 0x5A State.reset)) = quiet 0x0A ∧
    seeEvent (code 0 [0x17, 0x01, 0x20] (poke 0x20 0x33 State.reset)) = quiet 0x33 ∧
    seeEvent (code 5 [0x17, 0x03, 0x05] State.reset) = quiet 0x05 := by decide

theorem test_step_jz :
    seeEvent (code 5 [0x18, 0x03, 0x10] State.reset) = quiet 8 ∧
    seeEvent (code 5 [0x18, 0x03, 0x10] (setZ State.reset)) = quiet 0x10 ∧
    seeEvent (code 5 [0x18, 0x00, 0xFF] State.reset) = quiet 8 ∧
    seeEvent (code 5 [0x18, 0x00, 0xFF] (setZ State.reset)) = at_ 8 (.error (.unknownRegister 0xFF)) ∧
    seeEvent (code 5 [0x18, 0x01, 0x20] (setZ (poke 0x20 0x33 State.reset))) = quiet 0x33 := by decide

theorem test_step_jc :
    seeEvent (code 5 [0x19, 0x03, 0x30] (setC State.reset)) = quiet 0x30 ∧
    seeEvent (code 5 [0x19, 0x03, 0x30] State.reset) = quiet 8 ∧
    seeEvent (code 5 [0x19, 0x00, 0x01] (setC (setReg 0x01 0x88 State.reset))) = quiet 0x88 ∧
    seeEvent (code 5 [0x19, 0x01, 0x20] (setC (poke 0x20 0x33 State.reset))) = quiet 0x33 := by decide

theorem test_step_end_of_memory :
    (reached (step { State.reset with pc := 256, running := true })).map
      (fun t => (t.pc.toNat, t.running, t.ir, t.log.any (fun e => decide (e = .halted .endOfMemory))))
      = some (256, false, { op := 0, type := 0 }, true) := by decide

theorem test_step_fetch_past_end :
    seeEvent (code 0xFF [0x01] State.reset) = at_ 256 (.error (.uncaughtExecutionFault (.fetchOutOfBounds 256))) ∧
    (reached (step (code 0xFD [0x11, 0x03, 0x01] { State.reset with running := true }))).map
      (fun t => (t.pc.toNat, t.running, t.ir, t.readReg 0x01, czsop t))
      = some (256, false, { op := 0x11, type := 0x03 }, 0x00, [false, false, false, false, false]) ∧
    seeReg 0x01 (code 0xFC [0x11, 0x03, 0x01, 0x01] State.reset)
      = some (0x01, [false, false, false, false, false], 256) := by decide

theorem test_step_unknown_opcode :
    seeEvent (code 0 [0x05, 0x00] State.reset) = at_ 2 (.error (.unknownOpcode 0x05)) ∧
    (reached (step (code 0 [0x05, 0x00] State.reset))).map (·.ir) = some { op := 0x05, type := 0x00 } := by decide

theorem test_host_reset :
    (setReg 0x01 0x5A (poke 0x20 0x33 (start false))).hostReset = State.reset := by decide

/-- R62: a load before a run writes the image, a load during a run writes nothing. -/
theorem test_load :
    (State.reset.load [0x01, 0x00]).mem = [(0, 0x01)] ∧
    State.reset.startRun.load [0x01, 0x00] = State.reset.startRun := by decide

/-! ### The assembler (R78 to R92; 95_test_vectors.md 1.2, 3) -/

theorem test_assemble_forward_label :
    (assembleText "      JZ done   ; forward\n loop: JMP loop\ndone: HLT" State.reset).1.mem
      = (State.reset.storeBytes 0 [0x18, 0x03, 0x06, 0x17, 0x03, 0x03, 0x01, 0x00]).mem ∧
    (assembleText "      JZ done   ; forward\n loop: JMP loop\ndone: HLT" State.reset).2 = none := by decide

theorem test_assemble_operands :
    (assembleText "MOV MOP,#0\nADD [40], BL\nNOT #05" State.reset).1.mem
      = (State.reset.storeBytes 0 [0x10, 0x04, 0x00, 0x11, 0x02, 0x40, 0x0A, 0x16, 0x03, 0x05]).mem := by decide

theorem test_assemble_errors :
    (assembleText "MUL AX,BX" State.reset).2 = some .unknownInstruction ∧
    (assembleText "NOT FX" State.reset).2 = some .unknownRegister ∧
    (assembleText "JMP nowhere" State.reset).2 = some .unknownLabel ∧
    (assembleText "ADD AX,#100" State.reset).2 = some .invalidOperandFormat ∧
    (assembleText "NOP AX" State.reset).2 = some .invalidInstructionFormat := by decide

/-- notes/assumptions/19.md: the order of errors, a duplicate label before its line's instruction. -/
theorem test_assemble_error_order :
    (assembleText "a: NOP\na: MUL" State.reset).2 = some .invalidOperandFormat ∧
    (assembleText "MUL\na: NOP\na: NOP" State.reset).2 = some .unknownInstruction := by decide

/-- R90: an error that only pass 2 meets leaves the bytes of the earlier lines. -/
theorem test_assemble_partial :
    (assembleText "HLT
JMP nowhere" State.reset).1.mem = [(0, 0x01)] := by decide

/-! ### Witnesses: the hypotheses of each statement can be met -/

theorem witness_DecodeEncodeAgree : decode [0x11, 0x05, 0x40, 0x41, 0xEE] = .ok (.addMM 0x40 0x41, [0xEE]) := rfl

theorem witness_LengthFromHeader :
    decode (0x10 :: 0x04 :: [0x07]) = .ok (.movMop 0x07, []) ∧
    decode (0x0F :: 0x00 :: []) = .error (.unknownOpcode 0x0F) ∧
    decode (0x16 :: 0x03 :: [0x05]) = .error (.unknownAddressingMode 0x16 0x03) ∧
    decode (0x10 :: 0x00 :: [0x01]) = .error .truncated := ⟨rfl, rfl, rfl, rfl⟩

theorem witness_RegisterReadPacksBanks :
    [Reg.A, .B, .C, .D, .E, .G][0]? = some .A ∧ [Reg.A, .B, .C, .D, .E, .G][5]? = some .G ∧
    (1 ≤ (0x01 : RegCode).toNat ∧ (0x01 : RegCode).toNat ≤ 18) ∧ (1 ≤ (0x12 : RegCode).toNat ∧ (0x12 : RegCode).toNat ≤ 18) ∧
    ((0x00 : RegCode).toNat = 0 ∨ 19 ≤ (0x00 : RegCode).toNat) ∧
    ((0x13 : RegCode).toNat = 0 ∨ 19 ≤ (0x13 : RegCode).toNat) := by decide

theorem witness_RegisterWriteThenRead :
    (1 ≤ (0x06 : RegCode).toNat ∧ (0x06 : RegCode).toNat ≤ 6) ∧ (7 ≤ (0x07 : RegCode).toNat ∧ (0x07 : RegCode).toNat ≤ 18) ∧
    (7 ≤ (0x12 : RegCode).toNat ∧ (0x12 : RegCode).toNat ≤ 18) ∧ ((0x00 : RegCode).toNat = 0 ∨ 19 ≤ (0x00 : RegCode).toNat) ∧
    ((0x13 : RegCode).toNat = 0 ∨ 19 ≤ (0x13 : RegCode).toNat) := by decide

theorem witness_ResultRanges : (255 : Nat) ≤ 255 ∧ (0 : Nat) ≤ 255 := by decide

/-- A state with memory listed, and register operands at both ends of the codes. -/
theorem witness_two_operands :
    (poke 0x40 0x77 State.reset).mem.wf = true ∧
    (∀ c : OpClass, (poke 0x40 0x77 State.reset).OperandReady c 0x01) ∧
    (∀ c : OpClass, (poke 0x40 0x77 State.reset).OperandReady c 0x12) :=
  ⟨by decide, fun _ _ => .inl (by decide), fun _ _ => .inl (by decide)⟩

/-- The other way to be ready: `READ_ZERO`, with codes just outside the range. -/
theorem witness_two_operands_readZero :
    State.OperandReady { State.reset with cfg := { Config.spec with badReg := .readZero } } .R 0x00 ∧
    State.OperandReady { State.reset with cfg := { Config.spec with badReg := .readZero } } .R 0x13 :=
  ⟨fun _ => .inr rfl, fun _ => .inr rfl⟩

theorem witness_AddEffect :
    (poke 0x40 0x77 State.reset).mem.wf = true ∧ (poke 0x40 0x77 State.reset).OperandReady Mode2.rm.dest 0x12 ∧
    (poke 0x40 0x77 State.reset).OperandReady Mode2.rm.src 0x40 :=
  ⟨witness_two_operands.1, witness_two_operands.2.2 _, nofun⟩

theorem witness_SubEffect :
    (poke 0x40 0x77 State.reset).mem.wf = true ∧ (poke 0x40 0x77 State.reset).OperandReady Mode2.rm.dest 0x12 ∧
    (poke 0x40 0x77 State.reset).OperandReady Mode2.rm.src 0x40 :=
  ⟨witness_two_operands.1, witness_two_operands.2.2 _, nofun⟩

theorem witness_AndEffect :
    (poke 0x40 0x77 State.reset).mem.wf = true ∧ (poke 0x40 0x77 State.reset).OperandReady Mode2.rm.dest 0x12 ∧
    (poke 0x40 0x77 State.reset).OperandReady Mode2.rm.src 0x40 :=
  ⟨witness_two_operands.1, witness_two_operands.2.2 _, nofun⟩

theorem witness_OrEffect :
    (poke 0x40 0x77 State.reset).mem.wf = true ∧ (poke 0x40 0x77 State.reset).OperandReady Mode2.rm.dest 0x12 ∧
    (poke 0x40 0x77 State.reset).OperandReady Mode2.rm.src 0x40 :=
  ⟨witness_two_operands.1, witness_two_operands.2.2 _, nofun⟩

theorem witness_XorEffect :
    (poke 0x40 0x77 State.reset).mem.wf = true ∧ (poke 0x40 0x77 State.reset).OperandReady Mode2.rm.dest 0x12 ∧
    (poke 0x40 0x77 State.reset).OperandReady Mode2.rm.src 0x40 :=
  ⟨witness_two_operands.1, witness_two_operands.2.2 _, nofun⟩

theorem witness_ShlEffect :
    (poke 0x40 0x77 State.reset).mem.wf = true ∧ (poke 0x40 0x77 State.reset).OperandReady Mode2.rm.dest 0x12 ∧
    (poke 0x40 0x77 State.reset).OperandReady Mode2.rm.src 0x40 :=
  ⟨witness_two_operands.1, witness_two_operands.2.2 _, nofun⟩

theorem witness_ShrEffect :
    (poke 0x40 0x77 State.reset).mem.wf = true ∧ (poke 0x40 0x77 State.reset).OperandReady Mode2.rm.dest 0x12 ∧
    (poke 0x40 0x77 State.reset).OperandReady Mode2.rm.src 0x40 :=
  ⟨witness_two_operands.1, witness_two_operands.2.2 _, nofun⟩

theorem witness_CmpEffect :
    State.reset.OperandReady Mode2.rr.dest 0x01 ∧ State.reset.OperandReady Mode2.rr.src 0x12 :=
  ⟨fun _ => .inl (by decide), fun _ => .inl (by decide)⟩

theorem witness_NotEffect :
    ((Instr.notR 0x12 = .notR 0x12 ∧ OpClass.R = .R) ∨ (Instr.notR 0x12 = .notM 0x12 ∧ OpClass.R = .M)) ∧
    State.reset.mem.wf = true ∧ State.reset.OperandReady .R 0x12 ∧
    ((Instr.notM 0xFF = .notR 0xFF ∧ OpClass.M = .R) ∨ (Instr.notM 0xFF = .notM 0xFF ∧ OpClass.M = .M)) ∧
    State.reset.OperandReady .M 0xFF :=
  ⟨.inl ⟨rfl, rfl⟩, by decide, fun _ => .inl (by decide), .inr ⟨rfl, rfl⟩, nofun⟩

theorem witness_NotParameterOnlyMovesCarry :
    (Instr.notR 0x01 = .notR 0x01 ∨ Instr.notR 0x01 = .notM 0x01) ∧
    (Instr.notM 0x40 = .notR 0x40 ∨ Instr.notM 0x40 = .notM 0x40) := ⟨.inl rfl, .inr rfl⟩

theorem witness_MovEffect :
    State.reset.mem.wf = true ∧ State.reset.OperandReady Mode2.mr.dest 0x41 ∧
    State.reset.OperandReady Mode2.mr.src 0x04 := ⟨by decide, nofun, fun _ => .inl (by decide)⟩

theorem witness_JmpEffect : True ∧ State.reset.OperandReady Mode1.reg.cls 0x12 :=
  ⟨trivial, fun _ => .inl (by decide)⟩

theorem witness_JzEffect :
    ¬ State.reset.flags.ZF = true ∧ (setZ State.reset).flags.ZF = true ∧
    (setZ State.reset).OperandReady Mode1.reg.cls 0x01 := ⟨by decide, by decide, fun _ => .inl (by decide)⟩

theorem witness_JcEffect :
    ¬ State.reset.flags.CF = true ∧ (setC State.reset).flags.CF = true ∧
    (setC State.reset).OperandReady Mode1.reg.cls 0x01 := ⟨by decide, by decide, fun _ => .inl (by decide)⟩

theorem witness_IntEffect :
    State.reset.OperandReady Mode1.imm.cls 0x00 ∧ (State.reset.operand Mode1.imm.cls 0x00).toNat = 0 ∧
    (State.reset.operand Mode1.imm.cls 0x01).toNat = 1 ∧ 2 ≤ (State.reset.operand Mode1.imm.cls 0x02).toNat ∧
    2 ≤ (State.reset.operand Mode1.imm.cls 0xFF).toNat := ⟨nofun, by decide, by decide, by decide, by decide⟩

theorem witness_NopHltEffect :
    (code 254 [0x00, 0x00] State.reset).pc.toNat ≤ 254 ∧
    (code 254 [0x00, 0x00] State.reset).mem.read (code 254 [0x00, 0x00] State.reset).pc.toNat = 0x00 ∧
    (code 254 [0x01, 0x00] State.reset).mem.read (code 254 [0x01, 0x00] State.reset).pc.toNat = 0x01 := by decide

theorem witness_InvalidRegisterAbandons :
    State.reset.cfg.badReg = .abandon ∧ resolvesOperands (.movRR 0x13 0x00) State.reset = true ∧
    (registerOperands (.movRR 0x13 0x00)).find? (fun x => decide (x.toNat = 0 ∨ 19 ≤ x.toNat)) = some 0x13 ∧
    resolvesOperands (.jzR 0x00) (setZ State.reset) = true ∧
    (registerOperands (.jzR 0x00)).find? (fun x => decide (x.toNat = 0 ∨ 19 ≤ x.toNat)) = some 0x00 := by decide

theorem witness_WellFormedRaisesNoError : WellFormed (.addRR 0x01 0x12) = true := by decide

theorem witness_StepRunsDecodedInstruction :
    decode (code 0xFC [0x11, 0x03, 0x01, 0x01] State.reset).bytesFromPc = .ok (.addRI 0x01 0x01, []) := by rfl

theorem witness_EndOfMemoryHalts : 256 ≤ (State.pc { State.reset with pc := 256 }).toNat := by decide

theorem witness_FetchPastEndIsFatal :
    (code 0xFF [0x01] State.reset).pc.toNat < 256 ∧
    decode (code 0xFF [0x01] State.reset).bytesFromPc = .error .truncated ∧
    (code 0xFD [0x11, 0x03, 0x01] State.reset).pc.toNat < 256 ∧
    decode (code 0xFD [0x11, 0x03, 0x01] State.reset).bytesFromPc = .error .truncated :=
  ⟨by decide, rfl, by decide, rfl⟩

/-- `pc` and the two bytes there, for the statements about a rejected header. -/
def header (s : State) : Nat × Nat × Nat :=
  (s.pc.toNat, (s.mem.read s.pc.toNat).toNat, (s.mem.read (s.pc.toNat + 1)).toNat)

/-- The ends of both ranges of undefined opcodes, at the last `pc` the statement covers. -/
theorem witness_UndefinedOpcodeIsDropped :
    header (code 254 [0x03, 0x00] State.reset) = (254, 3, 0) ∧ header (code 254 [0x0F, 0x00] State.reset) = (254, 15, 0) ∧
    header (code 254 [0x1D, 0x00] State.reset) = (254, 29, 0) ∧
    header (code 254 [0xFF, 0x00] State.reset) = (254, 255, 0) := by decide

/-- Each clause's type bytes at their bounds: one-operand opcodes 2 and 4, MOV 7, two-operand opcodes 4 and 7, NOT 2. -/
theorem witness_UnacceptedModeIsDropped :
    header (code 254 [0x02, 0x02] State.reset) = (254, 2, 2) ∧ header (code 254 [0x19, 0x04] State.reset) = (254, 25, 4) ∧
    header (code 254 [0x10, 0x07] State.reset) = (254, 16, 7) ∧ header (code 254 [0x1C, 0x04] State.reset) = (254, 28, 4) ∧
    header (code 254 [0x11, 0x07] State.reset) = (254, 17, 7) ∧
    header (code 254 [0x16, 0x02] State.reset) = (254, 22, 2) := by decide

/-- For the statements about a state and the state a step gives from it. -/
theorem witness_step : ∃ t, step State.reset = .next t := ⟨_, rfl⟩

theorem witness_StepEventsInOrder : ∃ t, step State.reset = .next t := witness_step

theorem witness_PcAfterStep :
    State.reset.pc.toNat < 256 ∧ (∃ t, step State.reset = .next t) ∧
    256 ≤ (State.pc { State.reset with pc := 256 }).toNat ∧ (∃ t, step { State.reset with pc := 256 } = .next t) ∧
    decode (code 255 [0x00] State.reset).bytesFromPc = .error .truncated ∧
    decode [0x1D, 0x00] = .error (.unknownOpcode 0x1D) ∧
    decode [0x16, 0x03] = .error (.unknownAddressingMode 0x16 0x03) ∧
    jumpTarget (.jmpI 0xFF) State.reset = some 255 := ⟨by decide, witness_step, by decide, ⟨_, rfl⟩, rfl, rfl, rfl, rfl⟩

theorem witness_RecoverableErrorAbandons :
    ∃ t, step (code 0 [0x02, 0x03, 0x07] State.reset) = .next t ∧
      t.log = t.snapshot :: .error (.unknownInterrupt 0x07) :: (code 0 [0x02, 0x03, 0x07] State.reset).log ∧
      (RuntimeError.unknownInterrupt 0x07).fatal = false := ⟨_, rfl, rfl, rfl⟩

theorem witness_RunningClearedOnlyByHalts : ∃ t, step (code 0 [0x01, 0x00] State.reset) = .next t := ⟨_, rfl⟩

/-- A state in the invariant with memory listed, flags set and `pc` at its bound. -/
theorem witness_inv : (setReg 0x01 0x5A (poke 0xFF 0x77 (start false))).Inv ∧ State.Inv { State.reset with pc := 256 } :=
  ⟨⟨by decide, by decide, rfl, rfl⟩, ⟨by decide, by decide, rfl, rfl⟩⟩

theorem witness_StepKeepsInvariant :
    (setReg 0x01 0x5A (poke 0xFF 0x77 (start false))).Inv ∧
    ∃ t, step (setReg 0x01 0x5A (poke 0xFF 0x77 (start false))) = .next t := ⟨witness_inv.1, _, rfl⟩

theorem witness_HostActionsKeepInvariant : (setReg 0x01 0x5A (poke 0xFF 0x77 (start false))).Inv := witness_inv.1

theorem witness_MopWrittenOnlyByMovMop :
    ∃ t, exec (.movMop 0x00) (start true) = .next t ∧ t.flags.MOP ≠ (start true).flags.MOP := ⟨_, rfl, by decide⟩

theorem witness_StatusFlagsWrittenByNine :
    (∃ t, exec (.addRI 0x01 0x05) State.reset = .next t ∧ runsFlagUnit (.addRI 0x01 0x05) = true ∧ t.log = State.reset.log) ∧
    (∃ t, exec (.addRI 0x13 0x05) State.reset = .next t ∧ runsFlagUnit (.addRI 0x13 0x05) = true ∧ t.log ≠ State.reset.log) ∧
    (∃ t, exec (.movRI 0x01 0x05) State.reset = .next t ∧ runsFlagUnit (.movRI 0x01 0x05) = false) :=
  ⟨⟨_, rfl, by decide, rfl⟩, ⟨_, rfl, by decide, by decide⟩, ⟨_, rfl, by decide⟩⟩

theorem witness_OneDestinationPerInstruction :
    State.reset.mem.wf = true ∧
    (∃ t, exec (.movRI 0x01 0x55) State.reset = .next t ∧ (t.hi ≠ State.reset.hi ∨ t.lo ≠ State.reset.lo)) ∧
    (∃ t, exec (.movMI 0xFF 0x55) State.reset = .next t ∧ t.mem ≠ State.reset.mem) ∧
    (∃ t, exec (.jmpI 0xFF) State.reset = .next t ∧ t.pc ≠ State.reset.pc) ∧
    storedTo (.movMI 0xFF 0x55) = some 0xFF ∧ storedTo (.notM 0x00) = some 0x00 ∧ storedTo (.cmpMM 0x40 0x41) = none ∧
    registerWrittenBy (.addRR 0x06 0x01) = some 0x06 ∧ ¬ ReachesBank 0x06 0x10 ∧ ReachesBank 0x06 0x11 ∧
    ReachesBank 0x06 0x12 ∧ ¬ ReachesBank 0x01 0x09 ∧ ReachesBank 0x07 0x07 ∧ ¬ ReachesBank 0x07 0x08 ∧
    registerWrittenBy (.cmpRR 0x01 0x02) = none := by
  refine ⟨by decide, ⟨_, rfl, .inl (by decide)⟩, ⟨_, rfl, by decide⟩, ⟨_, rfl, by decide⟩, rfl, rfl, rfl, rfl, ?_, ?_, ?_,
    ?_, ?_, ?_, rfl⟩ <;> unfold ReachesBank <;> decide

/-- Two different states that agree on what a step reads. -/
theorem witness_StepIgnoresHiddenState :
    State.reset.readByStep = State.readByStep { State.reset with running := true, ir := { op := 0x11, type := 0x05 } } ∧
    State.reset ≠ { State.reset with running := true, ir := { op := 0x11, type := 0x05 } } ∧
    (∃ t, step State.reset = .next t) ∧
    ∃ t, step { State.reset with running := true, ir := { op := 0x11, type := 0x05 } } = .next t :=
  ⟨rfl, by decide, witness_step, _, rfl⟩

theorem witness_ResetState :
    (State.reset = State.reset ∨ State.reset = (start false).hostReset) ∧
    ((start false).hostReset = State.reset ∨ (start false).hostReset = (start false).hostReset) := ⟨.inl rfl, .inr rfl⟩

theorem witness_ResetMemoryRunsNops : (0 : Nat) ≤ 128 ∧ (128 : Nat) ≤ 128 ∧ (129 : Nat) ≤ 129 := by decide

theorem witness_RunStepsUntilHalted :
    (∃ u, run 0 State.reset = .next u ∧ u.running = true) ∧
    (∃ u, run 1 (code 0 [0x01, 0x00] State.reset) = .next u ∧ u.running = false) := ⟨⟨_, rfl, rfl⟩, ⟨_, rfl, rfl⟩⟩

theorem witness_LoadWritesImage :
    State.reset.mem.wf = true ∧ State.reset.running = false ∧ State.reset.startRun.running = true ∧
    (List.replicate 256 (0x11 : Byte)).length ≤ 256 ∧
    256 < (List.replicate 257 (0x11 : Byte)).length := by
  refine ⟨by decide, rfl, rfl, ?_, ?_⟩ <;> rw [List.length_replicate]; decide

theorem witness_EncodedLengthIsPassInvariant :
    encodeTokens none ["JMP".toList, "loop".toList] = .ok [0x17, 0x03, 0x00] ∧
    encodeTokens (some [("loop".toList, 7)]) ["JMP".toList, "loop".toList] = .ok [0x17, 0x03, 0x07] := ⟨rfl, rfl⟩

/-- 95_test_vectors.md scenario C, with a label on the second line as well. -/
theorem witness_AssemblyIsAddressStable :
    passOne ["loop: NOP".toList, "end: JMP loop".toList] 0 [] = .ok ([("loop".toList, 0), ("end".toList, 2)], 5) ∧
    (passTwo [("loop".toList, 0), ("end".toList, 2)] ["loop: NOP".toList, "end: JMP loop".toList]).2 = none ∧
    ["loop: NOP".toList, "end: JMP loop".toList][1]? = some "end: JMP loop".toList ∧
    parseLine "end: JMP loop".toList = .ok (some "end".toList, ["JMP".toList, "loop".toList]) := ⟨rfl, rfl, rfl, rfl⟩

theorem witness_AssembledLineDecodes :
    encodeTokens none ["ADD".toList, "[40]".toList, "BL".toList] = .ok [0x11, 0x02, 0x40, 0x0A] ∧
    ([0x11, 0x02, 0x40, 0x0A] : List Byte) ≠ [] ∧
    encodeTokens none ["NOT".toList, "#05".toList] = .ok [0x16, 0x03, 0x05] := ⟨rfl, by decide, rfl⟩

end Sys2Proof.Tests
end

section
/-! PROOFS. The register file in numbers, and the statements about register reads, register writes and the reset state
(10_state.md rules R22 to R27 and R43). -/

namespace Sys2Proof.Machine

/-! ### Codes and views -/

/-- The number of a register in the order A, B, C, D, E, G (R21). -/
def Reg.index : Reg → Nat
  | .A => 0
  | .B => 1
  | .C => 2
  | .D => 3
  | .E => 4
  | .G => 5

theorem Reg.index_lt (r : Reg) : r.index < 6 := by cases r <;> decide

/-- Registers are told apart by their numbers. -/
theorem Reg.eq_iff_index (p r : Reg) : p = r ↔ p.index = r.index := by cases p <;> cases r <;> decide

theorem Reg.index_of_getElem? {i : Nat} {r : Reg} (h : [Reg.A, .B, .C, .D, .E, .G][i]? = some r) : i = r.index := by
  match i with
  | 0 | 1 | 2 | 3 | 4 | 5 => cases h; rfl
  | i + 6 => simp at h

/-- The number of a view's code (R22). -/
def RegView.codeNumber : RegView → Nat
  | .whole r => r.index + 1
  | .high r => 2 * r.index + 7
  | .low r => 2 * r.index + 8

theorem ofCode_codeNumber (w : RegView) : RegView.ofCode (BitVec.ofNat 8 w.codeNumber) = some w := by
  cases w with
  | whole r | high r | low r => cases r <;> rfl

theorem toNat_eq_codeNumber {c : RegCode} {w : RegView} (h : RegView.ofCode c = some w) : c.toNat = w.codeNumber := by
  have all_codes : ∀ c : RegCode, ∀ w ∈ RegView.ofCode c, c.toNat = w.codeNumber := by decide
  exact all_codes c w h

/-- The ports' invalid-code signal: the code lies outside 1..18 (R26). -/
theorem ofCode_isNone (c : RegCode) : (RegView.ofCode c).isNone = decide (c.toNat = 0 ∨ 19 ≤ c.toNat) := by
  have signal_iff : (RegView.ofCode c).isNone = true ↔ ¬ validCode c = true := by simp [validCode]
  rw [Bool.eq_iff_iff, signal_iff, validCode_iff, decide_eq_true_iff]
  omega

theorem ofCode_eq_none_iff (c : RegCode) : RegView.ofCode c = none ↔ c.toNat = 0 ∨ 19 ≤ c.toNat := by
  rw [← Option.isNone_iff_eq_none, ofCode_isNone, decide_eq_true_iff]

theorem exists_ofCode {c : RegCode} (h1 : 1 ≤ c.toNat) (h18 : c.toNat ≤ 18) : ∃ w, RegView.ofCode c = some w :=
  Option.ne_none_iff_exists'.1 fun h => by have := (ofCode_eq_none_iff c).1 h; omega

/-- Codes 1 to 6 name the whole registers (R22). -/
theorem exists_ofCode_whole {c : RegCode} (h1 : 1 ≤ c.toNat) (h6 : c.toNat ≤ 6) :
    ∃ r, RegView.ofCode c = some (.whole r) := by
  obtain ⟨w, h⟩ := exists_ofCode h1 (by omega)
  have hc := toNat_eq_codeNumber h
  cases w with
  | whole r => exact ⟨r, h⟩
  | high r | low r => simp only [RegView.codeNumber] at hc; omega

/-- Codes 7 to 18 name the banks (R22). -/
theorem exists_ofCode_half {c : RegCode} (h7 : 7 ≤ c.toNat) (h18 : c.toNat ≤ 18) :
    ∃ r, RegView.ofCode c = some (.high r) ∨ RegView.ofCode c = some (.low r) := by
  obtain ⟨w, h⟩ := exists_ofCode (by omega) h18
  have hc := toNat_eq_codeNumber h
  cases w with
  | whole r => have := r.index_lt; simp only [RegView.codeNumber] at hc; omega
  | high r => exact ⟨r, .inl h⟩
  | low r => exact ⟨r, .inr h⟩

/-! ### Reads -/

theorem readView_whole_toNat (s : State) (r : Reg) :
    (s.readView (.whole r)).toNat = 16 * (s.hi.get r).toNat + (s.lo.get r).toNat := by
  simp only [State.readView, BitVec.toNat_append]
  rw [← Nat.shiftLeft_add_eq_or_of_lt (s.lo.get r).isLt, Nat.shiftLeft_eq]
  omega

theorem readView_high_toNat (s : State) (r : Reg) : (s.readView (.high r)).toNat = (s.hi.get r).toNat :=
  BitVec.toNat_setWidth_of_le (by decide)

theorem readView_low_toNat (s : State) (r : Reg) : (s.readView (.low r)).toNat = (s.lo.get r).toNat :=
  BitVec.toNat_setWidth_of_le (by decide)

theorem readPort_eq (s : State) (c : RegCode) : s.readPort c = (s.readReg c, (RegView.ofCode c).isNone) := by
  unfold State.readReg State.readPort
  cases RegView.ofCode c <;> rfl

theorem readPort_codeNumber (s : State) (w : RegView) :
    (s.readPort (BitVec.ofNat 8 w.codeNumber)).1 = s.readView w :=
  readReg_of_view (ofCode_codeNumber w) s

/-! ### Writes -/

theorem ofInt_four_toNat (v : Int) : ((BitVec.ofInt 4 v).toNat : Int) = v % 16 := by
  rw [BitVec.toNat_ofInt]
  omega

theorem ofInt_eight_high_toNat (v : Int) :
    (((BitVec.ofInt 8 v).extractLsb' 4 4).toNat : Int) = v / 16 % 16 := by
  rw [BitVec.extractLsb'_toNat, BitVec.toNat_ofInt, Nat.shiftRight_eq_div_pow]
  omega

/-- A register's high bank, in numbers, after a write through a view (R25). -/
theorem writeView_hi_toNat (s : State) (w : RegView) (v : Int) (p : Reg) :
    (((s.writeView w v).hi.get p).toNat : Int) =
      if w = .high p then v % 16 else if w = .whole p then v / 16 % 16 else ((s.hi.get p).toNat : Int) := by
  rw [writeView_hi_get]
  cases w with
  | whole r =>
    rcases eq_or_ne p r with rfl | h
    · simpa only [reduceCtorEq, or_false, false_or, if_true, if_false] using ofInt_eight_high_toNat v
    · simp [h, h.symm]
  | high r =>
    rcases eq_or_ne p r with rfl | h
    · simpa only [reduceCtorEq, or_false, false_or, if_true, if_false] using ofInt_four_toNat v
    · simp [h, h.symm]
  | low r => simp

/-- A register's low bank, in numbers, after a write through a view (R25). -/
theorem writeView_lo_toNat (s : State) (w : RegView) (v : Int) (p : Reg) :
    (((s.writeView w v).lo.get p).toNat : Int) =
      if w = .whole p ∨ w = .low p then v % 16 else ((s.lo.get p).toNat : Int) := by
  rw [writeView_lo_get]
  cases w with
  | whole r =>
    rcases eq_or_ne p r with rfl | h
    · simpa only [reduceCtorEq, or_false, false_or, if_true, if_false] using ofInt_four_toNat v
    · simp [h, h.symm]
  | high r => simp
  | low r =>
    rcases eq_or_ne p r with rfl | h
    · simpa only [reduceCtorEq, or_false, false_or, if_true, if_false] using ofInt_four_toNat v
    · simp [h, h.symm]

/-- The two digits a whole write stores read back as the value cut to a byte (R27). -/
theorem readView_writeView_whole (s : State) (r : Reg) (v : Int) :
    (((s.writeView (.whole r) v).readView (.whole r)).toNat : Int) = v % 256 := by
  have hhi := writeView_hi_toNat s (.whole r) v r
  have hlo := writeView_lo_toNat s (.whole r) v r
  simp only [reduceCtorEq, true_or, if_true, if_false] at hhi hlo
  rw [readView_whole_toNat]
  push_cast
  omega

theorem readView_writeView_high (s : State) (r : Reg) (v : Int) :
    (((s.writeView (.high r) v).readView (.high r)).toNat : Int) = v % 16 := by
  rw [readView_high_toNat, writeView_hi_toNat, if_pos rfl]

theorem readView_writeView_low (s : State) (r : Reg) (v : Int) :
    (((s.writeView (.low r) v).readView (.low r)).toNat : Int) = v % 16 := by
  rw [readView_low_toNat, writeView_lo_toNat, if_pos (.inr rfl)]

/-! `RegisterWritten` compares codes by number. In the four lemmas here `p` is the register of the bank asked about and
`w` the view written: the bank takes the low digit of the value (mod 16) just where `w` is the bank itself or the whole
register with the bank below, and the high digit (of the quotient by 16) just where `w` has the bank above. -/

theorem high_takes_low_digit_iff (p : Reg) (w : RegView) :
    ((RegView.high p).codeNumber = w.codeNumber ∨
      w.codeNumber ≤ 6 ∧ (RegView.high p).codeNumber = 2 * w.codeNumber + 6) ↔ w = .high p := by
  cases w with
  | whole r | high r | low r =>
    have := r.index_lt
    simp only [RegView.codeNumber, RegView.high.injEq, reduceCtorEq, Reg.eq_iff_index, iff_false]
    omega

theorem high_takes_high_digit_iff (p : Reg) (w : RegView) :
    (w.codeNumber ≤ 6 ∧ (RegView.high p).codeNumber = 2 * w.codeNumber + 5) ↔ w = .whole p := by
  cases w with
  | whole r | high r | low r =>
    have := r.index_lt
    simp only [RegView.codeNumber, RegView.whole.injEq, reduceCtorEq, Reg.eq_iff_index, iff_false]
    omega

theorem low_takes_low_digit_iff (p : Reg) (w : RegView) :
    ((RegView.low p).codeNumber = w.codeNumber ∨
      w.codeNumber ≤ 6 ∧ (RegView.low p).codeNumber = 2 * w.codeNumber + 6) ↔ w = .whole p ∨ w = .low p := by
  cases w with
  | whole r | high r | low r =>
    have := r.index_lt
    have := p.index_lt
    simp only [RegView.codeNumber, RegView.whole.injEq, RegView.low.injEq, reduceCtorEq, Reg.eq_iff_index, or_false,
      false_or, iff_false]
    omega

theorem low_takes_no_high_digit (p : Reg) (w : RegView) :
    ¬ (w.codeNumber ≤ 6 ∧ (RegView.low p).codeNumber = 2 * w.codeNumber + 5) := by
  cases w with
  | whole r | high r | low r =>
    simp only [RegView.codeNumber]
    omega

/-- A write sets the banks its code reaches and no other (R25). -/
theorem registerWritten_writeReg (s : State) (d : RegCode) (v : Int) : RegisterWritten d v s (s.writeReg d v) := by
  intro q h7 h18
  cases hd : RegView.ofCode d with
  | none =>
    have hout := (ofCode_eq_none_iff d).1 hd
    have hqd : q ≠ d := by rintro rfl; omega
    rw [writeReg_of_none hd, if_neg (by simp only [hqd, false_or]; omega), if_neg (by omega)]
  | some w =>
    rw [writeReg_of_view hd]
    obtain ⟨p, hq | hq⟩ := exists_ofCode_half h7 h18 <;>
      simp only [readReg_of_view hq, ← BitVec.toNat_inj, toNat_eq_codeNumber hq, toNat_eq_codeNumber hd]
    · simp only [readView_high_toNat, writeView_hi_toNat, high_takes_low_digit_iff, high_takes_high_digit_iff]
    · simp only [readView_low_toNat, writeView_lo_toNat, low_takes_low_digit_iff, low_takes_no_high_digit, if_false]

theorem readReg_writeReg_whole {c : RegCode} {r : Reg} (h : RegView.ofCode c = some (.whole r)) (s : State) (v : Int) :
    (((s.writeReg c v).readReg c).toNat : Int) = v % 256 := by
  rw [writeReg_of_view h, readReg_of_view h, readView_writeView_whole]

theorem readReg_writeReg_half {c : RegCode} {r : Reg}
    (h : RegView.ofCode c = some (.high r) ∨ RegView.ofCode c = some (.low r)) (s : State) (v : Int) :
    (((s.writeReg c v).readReg c).toNat : Int) = v % 16 := by
  rcases h with h | h <;> rw [writeReg_of_view h, readReg_of_view h]
  · exact readView_writeView_high s r v
  · exact readView_writeView_low s r v

theorem writeReg_frame (s : State) (c : RegCode) (v : Int) : { s.writeReg c v with hi := s.hi, lo := s.lo } = s := by
  simp only [writeReg_flags, writeReg_pc, writeReg_ir, writeReg_running, writeReg_mem, writeReg_cfg, writeReg_log]

/-! ### Reset -/

theorem readReg_reset (c : RegCode) : State.reset.readReg c = 0 := by
  cases h : RegView.ofCode c with
  | none => exact readReg_of_none h _
  | some w =>
    rw [readReg_of_view h]
    cases w with
    | whole r | high r | low r => cases r <;> rfl

/-- A host reset gives the banks their reset values. -/
theorem readReg_hostReset (s : State) (c : RegCode) : s.hostReset.readReg c = 0 :=
  (readReg_congr (s := State.reset) rfl rfl c).trans (readReg_reset c)

/-! ### The statements -/

/-- Settles O4: the code of each view reads that view, and the port's signal is the code being out of range. -/
theorem registerReadPacksBanks : Obligations.RegisterReadPacksBanks := by
  intro s
  refine ⟨fun i r h => ?_, fun c h1 h18 => ?_, fun c hout => ?_⟩
  · obtain rfl := Reg.index_of_getElem? h
    have hwhole := readPort_codeNumber s (.whole r)
    have hhigh := readPort_codeNumber s (.high r)
    have hlow := readPort_codeNumber s (.low r)
    simp only [RegView.codeNumber] at hwhole hhigh hlow
    rw [hwhole, hhigh, hlow]
    exact ⟨readView_whole_toNat s r, readView_high_toNat s r, readView_low_toNat s r⟩
  · rw [readPort_eq, ofCode_isNone, decide_eq_false (by omega)]
  · have hread : s.readReg c = 0 := readReg_of_none ((ofCode_eq_none_iff c).2 hout) s
    exact ⟨by rw [readPort_eq, hread, ofCode_isNone, decide_eq_true hout], hread⟩

/-- Settles O5: bank by bank from the write through a view, and the read back from the banks' numbers. -/
theorem registerWriteThenRead : Obligations.RegisterWriteThenRead := by
  intro s c v
  refine ⟨registerWritten_writeReg s c v, fun h1 h6 => ?_, fun h7 h18 => ?_, fun hout => ?_, writeReg_frame s c v, ?_⟩
  · obtain ⟨r, h⟩ := exists_ofCode_whole h1 h6
    exact readReg_writeReg_whole h s v
  · obtain ⟨r, h⟩ := exists_ofCode_half h7 h18
    exact readReg_writeReg_half h s v
  · exact writeReg_of_none ((ofCode_eq_none_iff c).2 hout) s v
  · rw [State.writePort, ofCode_isNone]

/-- Settles O45: the fields are the reset record's own, and zero banks read 0 through every code. -/
theorem resetState : Obligations.ResetState := by
  rintro s t (rfl | rfl)
  · exact ⟨readReg_reset, fun _ => rfl, rfl, rfl, rfl, rfl, rfl, rfl, rfl, rfl, rfl, rfl, rfl⟩
  · exact ⟨readReg_hostReset s, fun _ => rfl, rfl, rfl, rfl, rfl, rfl, rfl, rfl, rfl, rfl, rfl, rfl⟩

end Sys2Proof.Machine
end

section
/-! PROOFS. The statements about the two header bytes: the length they fix, and the step of an undefined opcode
(30_encoding.md rules R71 and R72). -/

namespace Sys2Proof

/-! ### The length the header fixes -/

section
variable {op ty : Byte} {h : Header} {rest : List Byte}

/-- A decoded instruction has the length its header fixes (R71). -/
theorem HeaderLaw.length_encode_of_ok (law : HeaderLaw op ty h) {i : Instr} {rest' : List Byte}
    (hd : decodeOperands h rest = .ok (i, rest')) : (encode i).length = instrLength op ty := by
  cases law with
  | zero i he hl => cases hd; rw [he, hl]; rfl
  | one mk he hl =>
    match rest with
    | [] => cases hd
    | b :: _ => cases hd; rw [he, hl]; rfl
  | two mk he hl =>
    match rest with
    | [] | [_] => cases hd
    | d :: b :: _ => cases hd; rw [he, hl]; rfl
  | badOpcode | badMode => cases hd

/-- A header rejected by name has length 2 (R72, R73). -/
theorem HeaderLaw.instrLength_of_rejected (law : HeaderLaw op ty h) {e : DecodeError}
    (hd : decodeOperands h rest = .error e) (he : e ≠ .truncated) : instrLength op ty = 2 := by
  cases law with
  | zero => cases hd
  | one =>
    match rest with
    | [] => cases hd; exact absurd rfl he
    | _ :: _ => cases hd
  | two =>
    match rest with
    | [] | [_] => cases hd; exact absurd rfl he
    | _ :: _ :: _ => cases hd
  | badOpcode hl | badMode hl => exact hl

/-- Truncated bytes are fewer than the length their header fixes (R71). -/
theorem HeaderLaw.lt_instrLength_of_truncated (law : HeaderLaw op ty h)
    (hd : decodeOperands h rest = .error .truncated) : rest.length + 2 < instrLength op ty := by
  cases law with
  | zero | badOpcode | badMode => cases hd
  | one mk _ hl =>
    match rest with
    | [] => rw [hl]; decide
    | _ :: _ => cases hd
  | two mk _ hl =>
    match rest with
    | [] | [_] => rw [hl]; simp
    | _ :: _ :: _ => cases hd

end

/-- The opcodes outside the table of R70 are rejected whatever the type byte (R72). -/
theorem decodeHeader_of_undefined {op : Byte} (h : (3 ≤ op.toNat ∧ op.toNat ≤ 15) ∨ 29 ≤ op.toNat) (ty : Byte) :
    decodeHeader op ty = .badOpcode op := by
  unfold decodeHeader
  split
  case h_17 => rfl
  all_goals omega

namespace Machine

/-! ### The step of a rejected header -/

/-- With two bytes left, the step fetches the header and latches IR, then goes by the header (R94). -/
theorem fetchInstr_of_pc_le {s : State} (h : s.pc.toNat ≤ 254) :
    fetchInstr s =
      fetchOperands (decodeHeader (s.mem.read s.pc.toNat) (s.mem.read (s.pc.toNat + 1))) (s.fetched 2) := by
  rcases fetchInstr_cases s with ⟨hpc, _⟩ | ⟨hpc, _⟩ | ⟨_, hf⟩
  · omega
  · omega
  · exact hf

theorem step_of_fetchInstr_error {s t : State} {e : RuntimeError} (h : fetchInstr s = .error e t) :
    step s = .next (t.raise e).notify := by
  simp only [step, h, thenNotify_next]

/-- A recoverable error adds its event and nothing else (R149). -/
theorem raise_of_not_fatal {e : RuntimeError} (h : e.fatal = false) (s : State) :
    s.raise e = { s with log := .error e :: s.log } := by
  simp [State.raise, State.emit, h]

/-! ### The statements -/

/-- Settles O3: each clause is a fact about the header, by cases on what the header asks for. -/
theorem lengthFromHeader : Obligations.LengthFromHeader := by
  intro op ty rest
  have law := decodeHeader_law op ty
  exact ⟨fun _ _ hd => law.length_encode_of_ok hd,
    fun _ hd => law.instrLength_of_rejected hd (by simp),
    fun _ _ hd => law.instrLength_of_rejected hd (by simp),
    law.lt_instrLength_of_truncated⟩

/-- Settles O30: the fetch stops at the header with a recoverable error, which adds its event only. -/
theorem undefinedOpcodeIsDropped : Obligations.UndefinedOpcodeIsDropped := by
  intro s hpc op hop
  have hf : fetchInstr s = .error (.unknownOpcode op) (s.fetched 2) := by
    rw [fetchInstr_of_pc_le hpc, decodeHeader_of_undefined hop]
    rfl
  rw [step_of_fetchInstr_error hf, raise_of_not_fatal rfl, fetched_log]

end Machine

end Sys2Proof
end

section
/-! PROOFS. What one step comes to, by what the bytes at `pc` decode to, and the statements about the events a step sends
and where it leaves `pc` (40_execution_cycle.md rules R94, R109 and R110). -/

namespace Sys2Proof.Machine

/-! ### Where an instruction goes -/

/-- Fetching an instruction and latching it touches nothing a jump's target depends on. -/
@[simp] theorem jumpTarget_fetched (i : Instr) (s : State) (n : Nat) : jumpTarget i (s.fetched n) = jumpTarget i s := rfl

/-- A target is the value of an operand, so a byte (R143). -/
theorem jumpTarget_lt {i : Instr} {s : State} {a : Nat} (h : jumpTarget i s = some a) : a < 256 := by
  unfold jumpTarget at h
  split at h
  case h_10 => cases h
  all_goals
    simp only [Option.ite_none_right_eq_some, Option.some.injEq] at h
    omega

/-- An instruction has one outcome, so the effect is that of the state it answers. -/
theorem effect_of_exec {i : Instr} {s t : State} (h : exec i s = .next t) : Effect i s t := by
  obtain ⟨u, hu, heff⟩ := exec_effect i s
  rw [h] at hu
  cases hu
  exact heff

/-- `pc` after an instruction that began within 0..256: the target of a taken jump, or as it was (R110). -/
theorem Effect.pc_toNat {i : Instr} {s t : State} (h : Effect i s t) (hs : s.pc.toNat ≤ 256) :
    t.pc.toNat = (jumpTarget i s).getD s.pc.toNat := by
  rw [h.pc]
  apply ofNat9_toNat
  cases ht : jumpTarget i s with
  | none => rw [Option.getD_none]; omega
  | some a => have := jumpTarget_lt ht; rw [Option.getD_some]; omega

/-- No instruction is without bytes (R63). -/
theorem length_encode_pos (i : Instr) : 0 < (encode i).length := by
  cases i <;> exact Nat.succ_pos _

/-! ### The step, by what its bytes decode to -/

/-- `s` after a fetch that ran past the end of memory: IR holds the header if both its bytes were there (R95, R96). -/
def State.fetchedPastEnd (s : State) : State :=
  { s with
    pc := 256
    ir := if s.pc.toNat = 255 then s.ir
      else { op := s.mem.read s.pc.toNat, type := s.mem.read (s.pc.toNat + 1) } }

/-- The states a step can reach before it notifies the port, for each result of decoding the bytes at `pc` (R94). -/
inductive StepReaches (s : State) : Except DecodeError (Instr × List Byte) → State → Prop where
  | endOfMemory (hpc : 256 ≤ s.pc.toNat) : StepReaches s (.error .truncated) (s.halt .endOfMemory)
  | fatalFetch (hpc : s.pc.toNat < 256) :
      StepReaches s (.error .truncated) (s.fetchedPastEnd.raise (.uncaughtExecutionFault (.fetchOutOfBounds 256)))
  | unknownOpcode (op : Byte) (hpc : s.pc.toNat ≤ 254) (hop : op = s.mem.read s.pc.toNat)
      (hdr : decodeHeader op (s.mem.read (s.pc.toNat + 1)) = .badOpcode op) :
      StepReaches s (.error (.unknownOpcode op)) ((s.fetched 2).raise (.unknownOpcode op))
  | unknownMode (op ty : Byte) (hpc : s.pc.toNat ≤ 254) (hop : op = s.mem.read s.pc.toNat)
      (hty : ty = s.mem.read (s.pc.toNat + 1)) (hdr : decodeHeader op ty = .badMode op ty) :
      StepReaches s (.error (.unknownAddressingMode op ty)) ((s.fetched 2).raise (.unknownAddressingMode op ty))
  | ran (i : Instr) (rest : List Byte) (t : State) (hpc : s.pc.toNat + (encode i).length ≤ 256)
      (hexec : exec i (s.fetched (encode i).length) = .next t) : StepReaches s (.ok (i, rest)) t

/-- The two spellings of the state of a fatal fetch agree. -/
theorem fetchedPastEnd_eq {s : State} {n : Nat} (hn : (s.fetched n).pc = 256) :
    (if s.pc.toNat = 255 then { s with pc := 256 } else s.fetched n) = s.fetchedPastEnd := by
  unfold State.fetchedPastEnd
  split
  · rfl
  · rw [← hn]; rfl

/-- Every step reaches one of those states and then sends `on_state_changed` (R109). -/
theorem step_reaches (s : State) : ∃ u, StepReaches s (decode s.bytesFromPc) u ∧ step s = .next u.notify := by
  have hfetch := fetchInstr_decode s
  generalize decode s.bytesFromPc = d at hfetch ⊢
  match d with
  | .ok (i, rest) =>
    obtain ⟨hpc, hrun⟩ := hfetch
    obtain ⟨t, hexec, _⟩ := exec_effect i (s.fetched (encode i).length)
    exact ⟨t, .ran i rest t hpc hexec, by simp only [step, hrun, hexec, thenNotify_next]⟩
  | .error .truncated =>
    rcases hfetch with ⟨hpc, hend⟩ | ⟨hpc, n, herr, hn⟩
    · exact ⟨_, .endOfMemory hpc, by simp only [step, hend, thenNotify_next]⟩
    · rw [fetchedPastEnd_eq hn] at herr
      exact ⟨_, .fatalFetch hpc, step_of_fetchInstr_error herr⟩
  | .error (.unknownOpcode op) =>
    obtain ⟨hpc, hop, hdr, herr⟩ := hfetch
    exact ⟨_, .unknownOpcode op hpc hop hdr, step_of_fetchInstr_error herr⟩
  | .error (.unknownAddressingMode op ty) =>
    obtain ⟨hpc, hop, hty, hdr, herr⟩ := hfetch
    exact ⟨_, .unknownMode op ty hpc hop hty hdr, step_of_fetchInstr_error herr⟩

/-- Read from a step that completed, which is every step. -/
theorem reaches_of_step {s t : State} (h : step s = .next t) :
    ∃ u, StepReaches s (decode s.bytesFromPc) u ∧ t = u.notify := by
  obtain ⟨u, hu, hstep⟩ := step_reaches s
  rw [hstep] at h
  cases h
  exact ⟨u, hu, rfl⟩

/-! ### Events -/

/-- The event `notify` sends carries the state it leaves. -/
theorem notify_log_snapshot (s : State) : s.notify.log = s.notify.snapshot :: s.log := rfl

/-- Before the notification a step has sent at most one event, and it is not `on_state_changed` (R109). -/
theorem StepReaches.log {s u : State} {d : Except DecodeError (Instr × List Byte)} (h : StepReaches s d u) :
    ∃ ev : List Event, u.log = ev ++ s.log ∧ ev.length ≤ 1 ∧ ∀ x, .stateChanged x ∉ ev := by
  cases h with
  | endOfMemory => exact ⟨[.halted .endOfMemory], rfl, by simp⟩
  | fatalFetch => exact ⟨[.error (.uncaughtExecutionFault (.fetchOutOfBounds 256))], rfl, by simp⟩
  | unknownOpcode op => exact ⟨[.error (.unknownOpcode op)], rfl, by simp⟩
  | unknownMode op ty => exact ⟨[.error (.unknownAddressingMode op ty)], rfl, by simp⟩
  | ran i rest t hpc hexec =>
    obtain ⟨ev, hlog, hlen, hev, _⟩ := (effect_of_exec hexec).ev
    exact ⟨ev, hlog, hlen, hev⟩

/-! ### The statements -/

/-- Settles O33: the step's own event, if any, and then the notification of the state it leaves. -/
theorem stepEventsInOrder : Obligations.StepEventsInOrder := by
  intro s t hstep
  obtain ⟨u, hu, rfl⟩ := reaches_of_step hstep
  obtain ⟨ev, hlog, hlen, hev⟩ := hu.log
  exact ⟨ev, by rw [notify_log_snapshot, hlog], hlen, hev⟩

/-- Settles O34: by what the bytes at `pc` decode to; they decode to an instruction or a rejected header only where
those bytes end within memory. -/
theorem pcAfterStep : Obligations.PcAfterStep := by
  intro s t hstep
  obtain ⟨u, hu, rfl⟩ := reaches_of_step hstep
  generalize decode s.bytesFromPc = d at hu ⊢
  cases hu with
  | endOfMemory hpc => exact ⟨fun _ => rfl, fun hlt => by omega⟩
  | fatalFetch hpc => exact ⟨fun hge => by omega, fun _ => rfl⟩
  | unknownOpcode op hpc | unknownMode op ty hpc =>
    refine ⟨fun hge => by omega, fun _ => ?_⟩
    rw [notify_pc, raise_pc, fetched_pc (by omega)]
  | ran i rest _ hpc hexec =>
    have hlen := length_encode_pos i
    have hfetched := fetched_pc hpc
    refine ⟨fun hge => by omega, fun _ => ?_⟩
    rw [notify_pc, (effect_of_exec hexec).pc_toNat (by omega), jumpTarget_fetched, hfetched]

end Sys2Proof.Machine
end

section
/-! PROOFS. The five flags in numbers, one lemma per flag, and the statement that the Flag Unit derives them
(41_flag_unit.md rules R113 to R120). -/

namespace Sys2Proof.Machine

/-! ### Counting and testing the bits of a byte -/

theorem length_filter_eq_sum {α : Type} (p : α → Bool) (l : List α) :
    (l.filter p).length = (l.map fun a => (p a).toNat).sum := by
  induction l with
  | nil => rfl
  | cons a l ih => cases h : p a <;> simp [h, ih, Nat.add_comm]

/-- The 1 bits of a byte, counted digit by digit (R12). -/
theorem popcount_eq_sum_digits (v : Byte) :
    popcount v = v.toNat % 2 + v.toNat / 2 % 2 + v.toNat / 4 % 2 + v.toNat / 8 % 2
      + v.toNat / 16 % 2 + v.toNat / 32 % 2 + v.toNat / 64 % 2 + v.toNat / 128 % 2 := by
  have hsum : popcount v = ((List.range 8).map fun i => v.toNat / 2 ^ i % 2).sum := by
    simp only [popcount, length_filter_eq_sum, BitVec.getLsbD, Nat.toNat_testBit]
  simp [hsum, List.range_succ, Nat.add_assoc]

/-- Of a byte below `2 ^ (i + 1)`, bit `i` is the top one: its mask leaves something just when the byte lies in the upper
half of that range. -/
theorem and_twoPow_ne_zero_iff {v : Byte} {i : Nat} (hi : i < 8) (hv : v.toNat < 2 ^ (i + 1)) :
    v &&& BitVec.twoPow 8 i ≠ 0 ↔ 2 ^ (i + 1) ≤ 2 * v.toNat := by
  have hweight : BitVec.twoPow 8 i ≠ 0#8 := fun h => by
    simpa [hi] using congrArg (BitVec.getLsbD · i) h
  have htop : v.getLsbD i = true ↔ 2 ^ i ≤ v.toNat :=
    ⟨Nat.ge_two_pow_of_testBit, fun h => Nat.testBit_of_two_pow_le_and_two_pow_add_one_gt h hv⟩
  have hhalf : 2 ^ i ≤ v.toNat ↔ 2 ^ (i + 1) ≤ 2 * v.toNat := by omega
  rw [BitVec.and_twoPow, ← hhalf, ← htop]
  simp [hweight]

/-! ### The flags -/

section
variable (r : Int) (mop : Bool) (f : Flags)

/-- The width's number of values is one more than its greatest (R114). -/
theorem flagMax_add_one : (flagMax mop : Int) + 1 = if mop then 16 else 256 := by cases mop <;> rfl

/-- The carry is the range test `0..max` on the raw result (R115). -/
theorem flagUnit_CF_iff : (flagUnit r mop f).CF = true ↔ r < 0 ∨ (if mop then 16 else 256) ≤ r := by
  simp only [flagUnit, ← flagMax_add_one, Bool.or_eq_true, decide_eq_true_eq]
  omega

/-- The zero test is on the masked result, not on the raw one (R118). -/
theorem flagUnit_ZF_iff : (flagUnit r mop f).ZF = true ↔ (maskedResult r mop).toNat = 0 := by
  simp only [flagUnit, decide_eq_true_eq]
  exact BitVec.toNat_inj.symm

/-- The sign bit is the masked result's top bit, so it is set in the upper half of the width (R119). -/
theorem flagUnit_SF_iff : (flagUnit r mop f).SF = true ↔
    (if mop then 16 else 256) ≤ 2 * ((maskedResult r mop).toNat : Int) := by
  cases mop with
  | false =>
    have hlt : (maskedResult r false).toNat < 2 ^ (7 + 1) := BitVec.isLt _
    exact decide_eq_true_iff.trans ((and_twoPow_ne_zero_iff (by decide) hlt).trans (by norm_cast))
  | true =>
    have hmasked := maskedResult_toNat r true
    have hlt : (maskedResult r true).toNat < 2 ^ (3 + 1) := by rw [if_pos rfl] at hmasked; omega
    exact decide_eq_true_iff.trans ((and_twoPow_ne_zero_iff (by decide) hlt).trans (by norm_cast))

/-- Parity is even parity, taken over the masked result only (R120). -/
theorem flagUnit_PF_iff : (flagUnit r mop f).PF = true ↔ popcount (maskedResult r mop) % 2 = 0 := decide_eq_true_iff

end

/-! ### The statement -/

/-- Settles O6: each flag by its own lemma, with the result's remainder read as the masked result. -/
theorem flagUnitDerivesFlags : Obligations.FlagUnitDerivesFlags := by
  intro r f
  have hmasked : (r % if f.MOP then 16 else 256).toNat = (maskedResult r f.MOP).toNat := by
    rw [← maskedResult_toNat, Int.toNat_natCast]
  simp only [FlagsDerived, hmasked, ← popcount_eq_sum_digits]
  exact ⟨flagUnit_CF_iff r f.MOP f, flagUnit_OF r f.MOP f, flagUnit_ZF_iff r f.MOP f, flagUnit_SF_iff r f.MOP f,
    flagUnit_PF_iff r f.MOP f, flagUnit_IF r f.MOP f, flagUnit_MOP r f.MOP f⟩

end Sys2Proof.Machine
end

section
/-! PROOFS. The statement about the FM form `MOV MOP, #k` (43_mov.md rule R130). -/

namespace Sys2Proof.Machine

/-- Type 0x04 of MOV, alone, names no dest byte: the one operand byte is the immediate (R66). -/
theorem decode_movMop (k : Imm) (rest : List Byte) : decode (0x10 :: 0x04 :: k :: rest) = .ok (.movMop k, rest) := rfl

theorem exec_movMop (k : Imm) (s : State) :
    exec (.movMop k) s = .next { s with flags := { s.flags with MOP := decide (k ≠ 0) } } := rfl

/-- Settles O19: the bytes by the decoder's equation, the effect by the meaning's, with `k ≠ 0` read as a number. -/
theorem movMopEffect : Obligations.MovMopEffect := by
  intro k rest s
  have hk : k ≠ 0 ↔ k.toNat ≠ 0 := BitVec.toNat_ne_iff_ne.symm
  exact ⟨decode_movMop k rest, by rw [exec_movMop, decide_eq_decide.2 hk]⟩

end Sys2Proof.Machine
end

section
/-! PROOFS. The range of each result handed to the Flag Unit, one lemma per operation, and the statement that collects
them (44_alu.md rule R142). -/

namespace Sys2Proof.Machine

section
variable {a b : Nat}

theorem addResult_range (ha : a ≤ 255) (hb : b ≤ 255) : 0 ≤ addResult a b ∧ addResult a b ≤ 510 := by
  unfold addResult; omega

theorem subResult_range (ha : a ≤ 255) (hb : b ≤ 255) : -255 ≤ subResult a b ∧ subResult a b ≤ 255 := by
  unfold subResult; omega

/-- A conjunction is at most its left operand, so the right one is unrestricted (R135). -/
theorem andResult_range (ha : a ≤ 255) : 0 ≤ andResult a b ∧ andResult a b ≤ 255 :=
  ⟨Int.natCast_nonneg _, Int.ofNat_le.2 (Nat.and_le_left.trans ha)⟩

/-- The bitwise operators stay inside the eight bits of their operands (R136). -/
theorem orResult_range (ha : a ≤ 255) (hb : b ≤ 255) : 0 ≤ orResult a b ∧ orResult a b ≤ 255 :=
  have hor : a ||| b < 2 ^ 8 := Nat.or_lt_two_pow (Nat.lt_succ_of_le ha) (Nat.lt_succ_of_le hb)
  ⟨Int.natCast_nonneg _, Int.ofNat_le.2 (Nat.le_of_lt_succ hor)⟩

theorem xorResult_range (ha : a ≤ 255) (hb : b ≤ 255) : 0 ≤ xorResult a b ∧ xorResult a b ≤ 255 :=
  have hxor : a ^^^ b < 2 ^ 8 := Nat.xor_lt_two_pow (Nat.lt_succ_of_le ha) (Nat.lt_succ_of_le hb)
  ⟨Int.natCast_nonneg _, Int.ofNat_le.2 (Nat.le_of_lt_succ hxor)⟩

theorem notResult_complementI32_range (ha : a ≤ 255) :
    -256 ≤ notResult .complementI32 a ∧ notResult .complementI32 a ≤ -1 := by
  simp only [notResult]; omega

theorem notResult_zext8_range (ha : a ≤ 255) : 0 ≤ notResult .zext8 a ∧ notResult .zext8 a ≤ 255 := by
  simp only [notResult]; omega

/-- The shift count is masked to 0..7, so the largest result is `255 * 2^7 = 32640`, for any `b` (R139). -/
theorem shlResult_range (ha : a ≤ 255) : 0 ≤ shlResult a b ∧ shlResult a b ≤ 32640 :=
  have hpow : 2 ^ (b &&& 7) ≤ 2 ^ 7 := Nat.pow_le_pow_right Nat.two_pos Nat.and_le_right
  ⟨Int.natCast_nonneg _, Int.ofNat_le.2 (Nat.mul_le_mul ha hpow)⟩

/-- A quotient is at most its dividend, whatever the shift count (R140). -/
theorem shrResult_range (ha : a ≤ 255) : 0 ≤ shrResult a b ∧ shrResult a b ≤ 255 :=
  ⟨Int.natCast_nonneg _, Int.ofNat_le.2 ((Nat.div_le_self _ _).trans ha)⟩

end

/-- Settles O7: each operation by its own range lemma. -/
theorem resultRanges : Obligations.ResultRanges := by
  intro a b ha hb
  exact ⟨addResult_range ha hb, subResult_range ha hb, andResult_range ha, orResult_range ha hb, xorResult_range ha hb,
    notResult_complementI32_range ha, notResult_zext8_range ha, shlResult_range ha, shrResult_range ha⟩

end Sys2Proof.Machine
end

section
/-! PROOFS. A recoverable error abandons the instruction: the state it leaves is that of the fetch, with the error raised
(60_exceptions.md rule R149). -/

namespace Sys2Proof.Machine

/-! ### The bytes fetched when the error is sent -/

/-- An instruction has at least its two header bytes (R63). -/
theorem two_le_length_encode (i : Instr) : 2 ≤ (encode i).length := by
  cases i <;> exact Nat.le_add_left 2 _

/-- With two bytes left, the bytes at `pc` begin with a header (R64). -/
theorem bytesFromPc_header {s : State} (hpc : s.pc.toNat ≤ 254) :
    ∃ rest, s.bytesFromPc = s.mem.read s.pc.toNat :: s.mem.read (s.pc.toNat + 1) :: rest :=
  ⟨_, bytesFromPc_split s 2 (by omega)⟩

/-- The instruction decoded at `pc` has the length its header in memory fixes (R71). -/
theorem length_encode_of_decode {s : State} {i : Instr} {rest : List Byte} (hpc : s.pc.toNat ≤ 254)
    (hd : decode s.bytesFromPc = .ok (i, rest)) :
    (encode i).length = instrLength (s.mem.read s.pc.toNat) (s.mem.read (s.pc.toNat + 1)) := by
  obtain ⟨bytes, hbytes⟩ := bytesFromPc_header hpc
  rw [hbytes] at hd
  exact (decodeHeader_law _ _).length_encode_of_ok hd

/-- A header rejected at `pc` has length 2 (R72, R73). -/
theorem instrLength_of_decode_rejected {s : State} {e : DecodeError} (hpc : s.pc.toNat ≤ 254)
    (hd : decode s.bytesFromPc = .error e) (he : e ≠ .truncated) :
    instrLength (s.mem.read s.pc.toNat) (s.mem.read (s.pc.toNat + 1)) = 2 := by
  obtain ⟨bytes, hbytes⟩ := bytesFromPc_header hpc
  rw [hbytes] at hd
  exact (decodeHeader_law _ _).instrLength_of_rejected hd he

/-! ### The state the error leaves -/

/-- An instruction that sent an error did nothing else (R106, R149). -/
theorem Effect.eq_raise {i : Instr} {s t : State} {e : RuntimeError} (h : Effect i s t)
    (hlog : t.log = .error e :: s.log) : t = s.raise e := by
  obtain ⟨ev, hev, _, _, hrunning, hframe⟩ := h.ev
  obtain rfl : ev = [.error e] := List.append_cancel_right (hev.symm.trans hlog)
  obtain ⟨hhi, hlo, hflags, hmem, hpc, hfatal⟩ := hframe e rfl
  have hrun : t.running = s.running := by simpa [Event.halts, hfatal] using hrunning
  rw [raise_of_not_fatal hfatal, ← hhi, ← hlo, ← hflags, ← hpc, ← h.ir, ← hrun, ← hmem, ← h.cfg, ← hlog]

/-- A step that sent a recoverable error has fetched the bytes its header fixes and raised the error (R97 to R99,
R149). -/
theorem StepReaches.eq_raise_fetched {s u : State} {e : RuntimeError} (h : StepReaches s (decode s.bytesFromPc) u)
    (hlog : u.log = .error e :: s.log) (he : e.fatal = false) :
    ∃ n, n = instrLength (s.mem.read s.pc.toNat) (s.mem.read (s.pc.toNat + 1)) ∧ s.pc.toNat + n ≤ 256 ∧
      u = (s.fetched n).raise e := by
  generalize hd : decode s.bytesFromPc = d at h
  cases h with
  | endOfMemory => cases hlog
  | fatalFetch => cases hlog; cases he
  | unknownOpcode op hpc | unknownMode op ty hpc =>
    cases hlog
    exact ⟨2, (instrLength_of_decode_rejected hpc hd (by simp)).symm, by omega, rfl⟩
  | ran i rest _ hpc hexec =>
    have hlen := two_le_length_encode i
    exact ⟨_, length_encode_of_decode (by omega) hd, hpc, (effect_of_exec hexec).eq_raise hlog⟩

/-! ### The statement -/

/-- Settles O35: the step's state is that of the fetch with the error raised, so everything but `pc` and IR is kept. -/
theorem recoverableErrorAbandons : Obligations.RecoverableErrorAbandons := by
  intro s t e hstep hlog he
  obtain ⟨u, hu, rfl⟩ := reaches_of_step hstep
  rw [notify_log_snapshot, List.cons_inj_right] at hlog
  obtain ⟨n, rfl, hpc, rfl⟩ := hu.eq_raise_fetched hlog he
  simp [he, fetched_pc hpc]

end Sys2Proof.Machine
end

section
/-! PROOFS. The run from reset memory: 128 NOP steps, then EndOfMemory (70_reset_and_hazards.md rule R169). -/

namespace Sys2Proof.Machine

/-! ### Host ticks -/

/-- While the engine runs, a tick is a step (R172). -/
theorem tick_of_running {s : State} (h : s.running = true) : tick s = step s := if_pos h

/-- After a tick that completes, the other ticks go on from its state (R172). -/
theorem runTicks_succ_of_tick {s t : State} (h : tick s = .next t) (n : Nat) : runTicks (n + 1) s = runTicks n t := by
  simp only [runTicks, h]

/-- Once the engine has halted, ticks do nothing (R172). -/
theorem runTicks_of_not_running {s : State} (h : s.running = false) (n : Nat) : runTicks n s = .next s := by
  have htick : tick s = .next s := by simp [tick, h]
  induction n with
  | zero => rfl
  | succ n ih => rw [runTicks_succ_of_tick htick, ih]

/-- Ticks compose: the last `n` of `m + n` ticks start where the first `m` ended (R172). -/
theorem runTicks_add {m : Nat} {s t : State} (h : runTicks m s = .next t) (n : Nat) :
    runTicks (m + n) s = runTicks n t := by
  induction m generalizing s with
  | zero => cases h; rw [Nat.zero_add]
  | succ m ih =>
    cases htick : tick s with
    | next u =>
      rw [runTicks_succ_of_tick htick] at h
      rw [Nat.add_right_comm, runTicks_succ_of_tick htick, ih h]
    | fault r => simp [runTicks, htick] at h
    | refused r => simp [runTicks, htick] at h

/-- The first of a running engine's ticks is its step (R172). -/
theorem runTicks_succ_of_step {s t : State} (hrun : s.running = true) (hstep : step s = .next t) (n : Nat) :
    runTicks (n + 1) s = runTicks n t :=
  runTicks_succ_of_tick ((tick_of_running hrun).trans hstep) n

/-! ### The two steps of the run -/

/-- With opcode byte 0x00 and a type byte at `pc`, the step fetches a NOP and does nothing else (R76, R123). -/
theorem step_of_nop {s : State} (hpc : s.pc.toNat ≤ 254) (hop : s.mem.read s.pc.toNat = 0x00) :
    step s = .next (s.fetched 2).notify := by
  have hf : fetchInstr s = .run (.nop (s.mem.read (s.pc.toNat + 1))) (s.fetched 2) := by
    rw [fetchInstr_of_pc_le hpc, hop]
    rfl
  simp only [step, hf]
  rfl

/-- At the end of memory the step halts (R94, R151). -/
theorem step_of_pc_ge {s : State} (hpc : 256 ≤ s.pc.toNat) : step s = .next (s.halt .endOfMemory).notify := by
  have hf : fetchInstr s = .endOfMemory := by
    rw [fetchInstr, fetchByte_end hpc]
  simp only [step, hf, thenNotify_next]

/-! ### The run from reset -/

/-- The engine is running and has come through `n` NOPs of a reset memory: `pc` and the history apart, everything a
program can read is as at reset (R169). -/
structure AfterNops (n : Nat) (t : State) : Prop where
  pc : t.pc.toNat = 2 * n
  running : t.running = true
  errorFree : t.ErrorFree
  hi : t.hi = State.reset.hi
  lo : t.lo = State.reset.lo
  flags : t.flags = State.reset.flags
  mem : t.mem = State.reset.mem

theorem afterNops_zero : AfterNops 0 State.reset.startRun := ⟨rfl, rfl, rfl, rfl, rfl, rfl, rfl⟩

/-- One more NOP: every byte of the reset memory is 0x00, so wherever a header fits it is a NOP's. -/
theorem AfterNops.succ {n : Nat} {s : State} (h : AfterNops n s) (hn : n < 128) :
    step s = .next (s.fetched 2).notify ∧ AfterNops (n + 1) (s.fetched 2).notify := by
  have hpc := h.pc
  have hop : s.mem.read s.pc.toNat = 0x00 := by rw [h.mem]; rfl
  refine ⟨step_of_nop (by omega) hop, ?_, h.running, h.errorFree, h.hi, h.lo, h.flags, h.mem⟩
  rw [notify_pc, fetched_pc (by omega), hpc, Nat.mul_succ]

/-- Up to 128 ticks from reset are as many NOPs, by induction on the ticks. -/
theorem run_reset_afterNops (n : Nat) (hn : n ≤ 128) : ∃ t, run n State.reset = .next t ∧ AfterNops n t := by
  induction n with
  | zero => exact ⟨_, rfl, afterNops_zero⟩
  | succ n ih =>
    obtain ⟨s, hrun, hs⟩ := ih (by omega)
    obtain ⟨hstep, ht⟩ := hs.succ hn
    exact ⟨_, by rw [run, runTicks_add hrun, runTicks_succ_of_step hs.running hstep, runTicks], ht⟩

/-- After 128 NOPs `pc` is 256, so the next tick halts and the later ones do nothing. -/
theorem AfterNops.runTicks_succ {s : State} (h : AfterNops 128 s) (k : Nat) :
    runTicks (k + 1) s = .next (s.halt .endOfMemory).notify := by
  rw [runTicks_succ_of_step h.running (step_of_pc_ge h.pc.ge)]
  exact runTicks_of_not_running rfl k

/-! ### The statement -/

/-- Settles O46: the run is in `AfterNops` up to the 128th tick, and from that state the 129th halts it. -/
theorem resetMemoryRunsNops : Obligations.ResetMemoryRunsNops := by
  constructor
  · intro n hn
    obtain ⟨t, hrun, ht⟩ := run_reset_afterNops n hn
    exact ⟨t, hrun, ht.pc, ht.running, ht.errorFree, ht.hi, ht.lo, ht.flags, ht.mem⟩
  · intro n hn
    obtain ⟨k, rfl⟩ := Nat.exists_eq_add_of_le hn
    obtain ⟨s, hrun, hs⟩ := run_reset_afterNops 128 le_rfl
    refine ⟨(s.halt .endOfMemory).notify, s.log, ?_, hs.pc, rfl, notify_log_snapshot _⟩
    rw [run, Nat.add_assoc 128 1 k, runTicks_add hrun, Nat.add_comm 1 k, hs.runTicks_succ]

end Sys2Proof.Machine
end

section
/-! PROOFS. Decode and encode agree, and the words of the encoding tables (30_encoding.md rules R63 to R76). -/

namespace Sys2Proof

/-- The decoder reads back every encoding and leaves the bytes after it (R63, R75). -/
theorem decode_encode_append (i : Instr) (rest : List Byte) : decode (encode i ++ rest) = .ok (i, rest) := by
  cases i <;> rfl

theorem decode_encode (i : Instr) : decode (encode i) = .ok (i, []) := by
  simpa using decode_encode_append i []

/-- The bytes a header and its operands decode from are the encoding and the bytes left (R74). -/
theorem HeaderLaw.bytes_of_ok {op ty : Byte} {h : Header} {bytes rest : List Byte} {i : Instr}
    (law : HeaderLaw op ty h) (hd : decodeOperands h bytes = .ok (i, rest)) :
    op :: ty :: bytes = encode i ++ rest := by
  cases law with
  | zero i he => cases hd; rw [he]; rfl
  | one mk he =>
    match bytes with
    | [] => cases hd
    | b :: _ => cases hd; rw [he]; rfl
  | two mk he =>
    match bytes with
    | [] | [_] => cases hd
    | d :: b :: _ => cases hd; rw [he]; rfl
  | badOpcode | badMode => cases hd

/-- Settles O2: one way by the instruction, the other by what its header asks for. -/
theorem decodeEncodeAgree : Obligations.DecodeEncodeAgree := by
  refine ⟨decode_encode_append, fun bs i rest hd => ?_⟩
  match bs with
  | [] | [_] => cases hd
  | op :: ty :: bytes => exact (decodeHeader_law op ty).bytes_of_ok hd

/-- Settles O1: eight words are encodings, and the header alone rejects the other two. -/
theorem specWordsDecode : Obligations.SpecWordsDecode :=
  ⟨decode_encode (.nop 0x5A), decode_encode (.intI 0x01), decode_encode (.movMR 0x41 0x04), decode_encode (.movMop 0x07),
    decode_encode_append (.addMM 0x40 0x41) [0xEE], decode_encode (.notM 0x60), rfl, decode_encode (.jzI 0x10),
    decode_encode (.cmpMI 0x70 0x20), rfl⟩

end Sys2Proof
end

section
/-! PROOFS. The effect of each instruction whose operands are ready: the ALU instructions, MOV, the jumps and INT
(44_alu.md rules R133 to R141, 43_mov.md R128, 45_branch.md R143 to R146, 42_system.md R125 and R126). -/

namespace Sys2Proof.Machine

/-! ### Writing the dest operand -/

/-- The dest's write depends on the banks and memory it leaves only. -/
theorem DestWritten.congr {c : OpClass} {d : Byte} {r : Int} {s t u : State} (h : DestWritten c d r s t)
    (hhi : u.hi = t.hi) (hlo : u.lo = t.lo) (hmem : u.mem = t.mem) : DestWritten c d r s u := by
  have hread := readReg_congr hhi hlo
  cases c with
  | R => simpa only [DestWritten, RegisterWritten, MemoryKept, hread, hmem] using h
  | M => simpa only [DestWritten, MemoryWritten, RegistersKept, hread, hmem] using h
  | I => simpa only [DestWritten, RegistersKept, MemoryKept, hread, hmem] using h

theorem memoryWritten_memWrite {s : State} (hwf : s.mem.wf = true) (a : Addr) (r : Int) :
    MemoryWritten a r s (s.memWrite a r) := by
  have hbyte : BitVec.ofInt 8 r = BitVec.ofNat 8 (r % 256).toNat := by
    apply BitVec.eq_of_toNat_eq
    rw [BitVec.toNat_ofInt, BitVec.toNat_ofNat]
    omega
  intro x
  rw [memWrite_mem, Memory.read_write _ _ _ hwf, hbyte]

/-- The write-back stores its result at the dest operand and nowhere else (R103). -/
theorem destWritten_writeBack {s : State} (hwf : s.mem.wf = true) (c : OpClass) (d : Byte) (r : Int) :
    DestWritten c d r s (s.writeBack c d r) := by
  cases c with
  | R => exact ⟨registerWritten_writeReg s d r, fun x => by rw [State.writeBack, writeReg_mem]⟩
  | M => exact ⟨memoryWritten_memWrite hwf d r, readReg_congr rfl rfl⟩
  | I => exact ⟨fun _ => rfl, fun _ => rfl⟩

/-- The Flag Unit run on a result derives the flags (R113). -/
theorem flagsDerived_updateFlags (s : State) (r : Int) : FlagsDerived r s.flags (s.updateFlags r).flags :=
  flagUnitDerivesFlags r s.flags

theorem flagsDerived_writeBack_updateFlags (s : State) (c : OpClass) (d : Byte) (r : Int) :
    FlagsDerived r s.flags ((s.writeBack c d r).updateFlags r).flags := by
  simpa only [writeBack_flags] using flagsDerived_updateFlags (s.writeBack c d r) r

theorem controlKept_writeBack (s : State) (c : OpClass) (d : Byte) (r : Int) : ControlKept s (s.writeBack c d r) := by
  simp [ControlKept]

/-! ### The ALU instructions -/

/-- With ready operands an ALU instruction completes: it writes its result, if it writes, and runs the Flag Unit
(R104). -/
theorem exec_binary_ready {e : (Mode2 → Byte → Byte → Instr) × (Nat → Nat → Int) × Bool} (he : e ∈ binaryTable)
    {m : Mode2} {d b : Byte} {s : State} (hd : s.OperandReady m.dest d) (hb : s.OperandReady m.src b) :
    exec (e.1 m d b) s =
      let r := e.2.1 (s.operand m.dest d).toNat (s.operand m.src b).toNat
      .next ((if e.2.2 then s.writeBack m.dest d r else s).updateFlags r) :=
  (exec_binary he m d b s).trans (withOperands_of_none (operandError_two hd hb) _)

/-- A row of the table that writes has its effect, by its bytes and by what its operation computes on two bytes. -/
theorem writesResult_of_binary {op : Byte} {mk : Mode2 → Byte → Byte → Instr} {f : Nat → Nat → Int}
    {result : Byte → Byte → Int} (he : (mk, f, true) ∈ binaryTable) (hbytes : TwoOperandBytes op mk)
    (hf : ∀ a b : Byte, f a.toNat b.toNat = result a b) : WritesResult op mk result := by
  refine ⟨hbytes, fun m d b s hwf hd hb => ?_⟩
  rw [← hf]
  exact ⟨_, exec_binary_ready he hd hb, (destWritten_writeBack hwf m.dest d _).congr rfl rfl rfl,
    flagsDerived_writeBack_updateFlags s m.dest d _, controlKept_writeBack s m.dest d _⟩

/-- Settles O8: the table's row for ADD. -/
theorem addEffect : Obligations.AddEffect :=
  writesResult_of_binary (f := addResult) (by simp [binaryTable]) (fun _ _ => ⟨rfl, rfl, rfl, rfl, rfl, rfl⟩)
    fun _ _ => rfl

/-- Settles O9: the table's row for SUB. -/
theorem subEffect : Obligations.SubEffect :=
  writesResult_of_binary (f := subResult) (by simp [binaryTable]) (fun _ _ => ⟨rfl, rfl, rfl, rfl, rfl, rfl⟩)
    fun _ _ => rfl

/-- Settles O10: the table's row for AND, whose operation on numbers is that on bytes. -/
theorem andEffect : Obligations.AndEffect :=
  writesResult_of_binary (f := andResult) (by simp [binaryTable]) (fun _ _ => ⟨rfl, rfl, rfl, rfl, rfl, rfl⟩)
    fun _ _ => by rw [andResult, BitVec.toNat_and]

/-- Settles O11: the table's row for OR, whose operation on numbers is that on bytes. -/
theorem orEffect : Obligations.OrEffect :=
  writesResult_of_binary (f := orResult) (by simp [binaryTable]) (fun _ _ => ⟨rfl, rfl, rfl, rfl, rfl, rfl⟩)
    fun _ _ => by rw [orResult, BitVec.toNat_or]

/-- Settles O12: the table's row for XOR, whose operation on numbers is that on bytes. -/
theorem xorEffect : Obligations.XorEffect :=
  writesResult_of_binary (f := xorResult) (by simp [binaryTable]) (fun _ _ => ⟨rfl, rfl, rfl, rfl, rfl, rfl⟩)
    fun _ _ => by rw [xorResult, BitVec.toNat_xor]

/-- The mask of a shift count is its remainder by 8 (R139, R140). -/
theorem and_seven (n : Nat) : n &&& 7 = n % 8 := Nat.and_two_pow_sub_one_eq_mod n 3

/-- Settles O13: the table's row for SHL, whose count is masked to its remainder. -/
theorem shlEffect : Obligations.ShlEffect :=
  writesResult_of_binary (f := shlResult) (by simp [binaryTable]) (fun _ _ => ⟨rfl, rfl, rfl, rfl, rfl, rfl⟩)
    fun _ _ => by rw [shlResult, and_seven]; push_cast; rfl

/-- Settles O14: the table's row for SHR, whose count is masked to its remainder. -/
theorem shrEffect : Obligations.ShrEffect :=
  writesResult_of_binary (f := shrResult) (by simp [binaryTable]) (fun _ _ => ⟨rfl, rfl, rfl, rfl, rfl, rfl⟩)
    fun _ _ => by rw [shrResult, and_seven]; push_cast; rfl

/-- Settles O15: CMP and SUB run the Flag Unit on one result, under one MOP, and CMP writes nothing before it. -/
theorem cmpEffect : Obligations.CmpEffect := by
  refine ⟨fun _ _ => ⟨rfl, rfl, rfl, rfl, rfl, rfl⟩, fun m d b s hd hb => ?_⟩
  have hcmp := exec_binary_ready (e := (cmpOf, subResult, false)) (by simp [binaryTable]) hd hb
  have hsub := exec_binary_ready (e := (subOf, subResult, true)) (by simp [binaryTable]) hd hb
  refine ⟨_, _, hcmp, hsub, ?_, flagsDerived_updateFlags s _, readReg_congr rfl rfl, fun _ => rfl,
    ⟨rfl, rfl, rfl, rfl, rfl⟩⟩
  simp

/-! ### NOT -/

theorem notResult_eq (p : NotResult) (a : Nat) :
    notResult p a = if p = .zext8 then 255 - (a : Int) else -(a : Int) - 1 := by
  cases p <;> rfl

/-- Past the check of its operand, NOT completes (R138). -/
theorem complement_of_check {m : Mode1} {b : Byte} {s : State} (h : s.operandError [(m.cls, b)] = none) :
    complement m b s =
      let r := notResult s.cfg.notResult (s.operand m.cls b).toNat
      .next ((s.writeBack m.cls b r).updateFlags r) :=
  withOperands_of_none h _

/-- Settles O16: both forms are `complement` of their mode. -/
theorem notEffect : Obligations.NotEffect := by
  refine ⟨fun _ => ⟨rfl, rfl⟩, fun b s i c hi hwf hready => ?_⟩
  obtain ⟨m, hm, hexec⟩ : ∃ m : Mode1, m.cls = c ∧ exec i s = complement m b s := by
    rcases hi with ⟨rfl, rfl⟩ | ⟨rfl, rfl⟩
    · exact ⟨.reg, rfl, rfl⟩
    · exact ⟨.mem, rfl, rfl⟩
  subst hm
  simp only [← notResult_eq]
  exact ⟨_, hexec.trans (complement_of_check (operandError_one hready)), controlKept_writeBack s m.cls b _,
    (destWritten_writeBack hwf m.cls b _).congr rfl rfl rfl, flagsDerived_writeBack_updateFlags s m.cls b _⟩

/-! ### MOV -/

/-- Settles O18: the write-back alone, which keeps the flags. -/
theorem movEffect : Obligations.MovEffect := by
  refine ⟨fun _ _ => ⟨rfl, rfl, rfl, rfl, rfl, rfl⟩, fun m d b s hwf hd hb => ?_⟩
  exact ⟨_, (exec_mov m d b s).trans (withOperands_of_none (operandError_two hd hb) _),
    destWritten_writeBack hwf m.dest d _, writeBack_flags s m.dest d _, controlKept_writeBack s m.dest d _⟩

/-! ### The jumps -/

theorem jump_not_taken (m : Mode1) (b : Byte) (s : State) : jump false m b s = .next s := rfl

/-- Taken with a ready operand, a jump sets `pc` to the operand's value (R143). -/
theorem jump_taken {m : Mode1} {b : Byte} {s : State} (h : s.OperandReady m.cls b) :
    jump true m b s = .next { s with pc := BitVec.ofNat 9 (s.operand m.cls b).toNat } := by
  have hready := operandError_one h
  rcases jump_cases true m b s with ⟨hc, _⟩ | ⟨_, e, he, _⟩ | ⟨_, _, htaken⟩
  · cases hc
  · rw [hready] at he; cases he
  · exact htaken

/-- An instruction that is `jump` on a flag jumps on that flag. -/
theorem jumps_of_exec {op : Byte} {mk : Mode1 → Byte → Instr} {cond : State → Prop} {flag : State → Bool}
    (hbytes : OneOperandBytes op mk) (hexec : ∀ m b s, exec (mk m b) s = jump (flag s) m b s)
    (hcond : ∀ s, cond s ↔ flag s = true) : Jumps op mk cond := by
  refine ⟨hbytes, fun m b s => ⟨fun hc => ?_, fun hc hready => ?_⟩⟩
  · rw [hcond, Bool.not_eq_true] at hc
    rw [hexec, hc, jump_not_taken]
  · rw [hexec, (hcond s).1 hc, jump_taken hready]

/-- Settles O20: the jump whose condition always holds. -/
theorem jmpEffect : Obligations.JmpEffect :=
  jumps_of_exec (flag := fun _ => true) (fun _ => ⟨rfl, rfl, rfl⟩) exec_jmp fun _ => iff_of_true trivial rfl

/-- Settles O21: the jump on ZF. -/
theorem jzEffect : Obligations.JzEffect :=
  jumps_of_exec (flag := fun s => s.flags.ZF) (fun _ => ⟨rfl, rfl, rfl⟩) exec_jz fun _ => Iff.rfl

/-- Settles O22: the jump on CF. -/
theorem jcEffect : Obligations.JcEffect :=
  jumps_of_exec (flag := fun s => s.flags.CF) (fun _ => ⟨rfl, rfl, rfl⟩) exec_jc fun _ => Iff.rfl

/-! ### INT -/

/-- With its operand ready, INT sends its number and AX to the port, or raises the number as unknown (R126). -/
theorem interrupt_ready {m : Mode1} {b : Byte} {s : State} (h : s.OperandReady m.cls b) :
    ((s.operand m.cls b).toNat < 2 ∧
      interrupt m b s = .next (s.emit (.interrupt (s.operand m.cls b) (s.readReg codeAX)))) ∨
    (2 ≤ (s.operand m.cls b).toNat ∧ interrupt m b s = .next (s.raise (.unknownInterrupt (s.operand m.cls b)))) := by
  have hready := operandError_one h
  rcases interrupt_cases m b s with ⟨e, he, _⟩ | ⟨_, h2⟩ | ⟨_, h2⟩
  · rw [hready] at he; cases he
  · exact .inl h2
  · exact .inr h2

/-- Settles O23: the two numbers the port takes, and the rest. -/
theorem intEffect : Obligations.IntEffect := by
  refine ⟨fun _ => ⟨rfl, rfl, rfl⟩, fun m b s hready => ?_⟩
  rw [exec_int]
  rcases interrupt_ready hready with ⟨hlt, h⟩ | ⟨hge, h⟩
  · rw [h]
    refine ⟨fun h0 => ?_, fun h1 => ?_, fun h2 => by omega⟩
    · rw [BitVec.eq_of_toNat_eq (y := 0) h0]; rfl
    · rw [BitVec.eq_of_toNat_eq (y := 1) h1]; rfl
  · exact ⟨fun h0 => by omega, fun h1 => by omega, fun _ => by rw [h, raise_of_not_fatal rfl]⟩

end Sys2Proof.Machine
end

section
/-! PROOFS. What a run does not depend on: a step on the hidden part of the state, what an instruction stores on MOP, and
what NOT stores on its parameter (10_state.md rules R29, R42 and R46, 44_alu.md R138). -/

namespace Sys2Proof.Machine

/-! ### States with the same banks and memory -/

/-- The same banks and the same memory: what an operand can be read from or written to. -/
structure SameStore (s u : State) : Prop where
  hi : s.hi = u.hi
  lo : s.lo = u.lo
  mem : s.mem = u.mem

namespace SameStore
variable {s u : State} (h : SameStore s u)
include h

theorem operand_eq (c : OpClass) (b : Byte) : s.operand c b = u.operand c b := by
  cases c with
  | R => exact readReg_congr h.hi h.lo b
  | M => simp only [State.operand, State.memRead, h.mem]
  | I => rfl

theorem writeReg (c : RegCode) (r : Int) : SameStore (s.writeReg c r) (u.writeReg c r) := by
  cases hc : RegView.ofCode c with
  | none => simpa only [writeReg_of_none hc] using h
  | some w =>
    simp only [writeReg_of_view hc]
    cases w <;> exact ⟨by simp [State.writeView, h.hi], by simp [State.writeView, h.lo], h.mem⟩

theorem writeBack (c : OpClass) (b : Byte) (r : Int) : SameStore (s.writeBack c b r) (u.writeBack c b r) := by
  cases c with
  | R => exact h.writeReg b r
  | M => exact ⟨h.hi, h.lo, by simp only [State.writeBack, memWrite_mem, h.mem]⟩
  | I => exact h

end SameStore

/-- The operand check reads `P_BADREG` only (R100, R102). -/
theorem operandError_congr {s u : State} (h : s.cfg.badReg = u.cfg.badReg) (os : List (OpClass × Byte)) :
    s.operandError os = u.operandError os := by
  have hreg : s.registerError = u.registerError := by
    funext o
    simp only [State.registerError, h]
  rw [operandError_eq, operandError_eq, hreg]

/-! ### Running one instruction from two states -/

/-- Two states that agree on all that an instruction reads, MOP apart. -/
structure AlikeButMop (s u : State) : Prop where
  store : SameStore s u
  pc : s.pc = u.pc
  cfg : s.cfg = u.cfg
  CF : s.flags.CF = u.flags.CF
  ZF : s.flags.ZF = u.flags.ZF

/-- What a step reads is that and MOP. -/
theorem readByStep_eq_iff {s u : State} :
    s.readByStep = u.readByStep ↔ AlikeButMop s u ∧ s.flags.MOP = u.flags.MOP := by
  simp only [State.readByStep, Prod.mk.injEq]
  constructor
  · rintro ⟨hhi, hlo, hCF, hZF, hMOP, hpc, hmem, hcfg⟩
    exact ⟨⟨⟨hhi, hlo, hmem⟩, hpc, hcfg, hCF, hZF⟩, hMOP⟩
  · rintro ⟨⟨⟨hhi, hlo, hmem⟩, hpc, hcfg, hCF, hZF⟩, hMOP⟩
    exact ⟨hhi, hlo, hCF, hZF, hMOP, hpc, hmem, hcfg⟩

/-- Outcomes reached from `s` and `u`: next states with the same banks, memory and `pc`, after the same events; and where
MOP was the same too, next states that the following steps cannot tell apart. -/
def EndAlike (s u : State) (R R' : Result) : Prop :=
  ∃ (t v : State) (ev : List Event), R = .next t ∧ R' = .next v ∧ SameStore t v ∧ t.pc = v.pc ∧
    t.log = ev ++ s.log ∧ v.log = ev ++ u.log ∧ (s.flags.MOP = u.flags.MOP → t.readByStep = v.readByStep)

/-- The shape of most outcomes: next states that still agree on what is read, with MOP kept or set alike. -/
theorem EndAlike.of_alike {s u t v : State} (ev : List Event) (h : AlikeButMop t v)
    (hmop : s.flags.MOP = u.flags.MOP → t.flags.MOP = v.flags.MOP)
    (ht : t.log = ev ++ s.log) (hv : v.log = ev ++ u.log) : EndAlike s u (.next t) (.next v) :=
  ⟨t, v, ev, rfl, rfl, h.store, h.pc, ht, hv, fun hm => readByStep_eq_iff.2 ⟨h, hmop hm⟩⟩

section
variable {s u : State} (h : AlikeButMop s u)
include h

theorem endAlike_next : EndAlike s u (.next s) (.next u) := .of_alike [] h id rfl rfl

theorem endAlike_emit (e : Event) : EndAlike s u (.next (s.emit e)) (.next (u.emit e)) :=
  .of_alike [e] ⟨⟨h.store.hi, h.store.lo, h.store.mem⟩, h.pc, h.cfg, h.CF, h.ZF⟩ id rfl rfl

theorem endAlike_halt (r : HaltReason) : EndAlike s u (.next (s.halt r)) (.next (u.halt r)) :=
  .of_alike [.halted r] ⟨⟨h.store.hi, h.store.lo, h.store.mem⟩, h.pc, h.cfg, h.CF, h.ZF⟩ id rfl rfl

theorem endAlike_raise (e : RuntimeError) : EndAlike s u (.next (s.raise e)) (.next (u.raise e)) :=
  .of_alike [.error e] ⟨⟨by simp [h.store.hi], by simp [h.store.lo], by simp [h.store.mem]⟩, by simp [h.pc],
    by simp [h.cfg], by simp [h.CF], by simp [h.ZF]⟩ (by simp) (raise_log s e) (raise_log u e)

theorem endAlike_setPc (a : Pc) : EndAlike s u (.next { s with pc := a }) (.next { u with pc := a }) :=
  .of_alike [] ⟨⟨h.store.hi, h.store.lo, h.store.mem⟩, rfl, h.cfg, h.CF, h.ZF⟩ id rfl rfl

theorem endAlike_setMop (b : Bool) : EndAlike s u (.next { s with flags := { s.flags with MOP := b } })
    (.next { u with flags := { u.flags with MOP := b } }) :=
  .of_alike [] ⟨⟨h.store.hi, h.store.lo, h.store.mem⟩, h.pc, h.cfg, h.CF, h.ZF⟩ (fun _ => rfl) rfl rfl

theorem endAlike_writeBack (c : OpClass) (d : Byte) (r : Int) :
    EndAlike s u (.next (s.writeBack c d r)) (.next (u.writeBack c d r)) :=
  .of_alike [] ⟨h.store.writeBack c d r, by simp [h.pc], by simp [h.cfg], by simp [h.CF], by simp [h.ZF]⟩ (by simp)
    (writeBack_log s c d r) (writeBack_log u c d r)

/-- The Flag Unit reads MOP, so it is only under one MOP that the flags it leaves agree (R114). -/
theorem endAlike_compute (c : OpClass) (d : Byte) (r : Int) :
    EndAlike s u (.next ((s.writeBack c d r).updateFlags r)) (.next ((u.writeBack c d r).updateFlags r)) := by
  have hstore := h.store.writeBack c d r
  refine ⟨_, _, [], rfl, rfl, ⟨hstore.hi, hstore.lo, hstore.mem⟩, by simp [h.pc], by simp, by simp, fun hm => ?_⟩
  refine readByStep_eq_iff.2
    ⟨⟨⟨hstore.hi, hstore.lo, hstore.mem⟩, by simp [h.pc], by simp [h.cfg], ?_, ?_⟩, by simp [hm]⟩
  · simp [hm, flagUnit]
  · simp [hm, flagUnit]

/-- Both instructions are abandoned with one error, or both go on. -/
theorem endAlike_withOperands (os : List (OpClass × Byte)) {k k' : Result} (hk : EndAlike s u k k') :
    EndAlike s u (withOperands s os k) (withOperands u os k') := by
  have herr := operandError_congr (congrArg Config.badReg h.cfg) os
  unfold withOperands
  rw [herr]
  split
  · exact endAlike_raise h _
  · exact hk

theorem endAlike_binop (f : Nat → Nat → Int) (w : Bool) (m : Mode2) (d b : Byte) :
    EndAlike s u (binop f w m d b s) (binop f w m d b u) := by
  refine endAlike_withOperands h _ ?_
  simp only [h.store.operand_eq]
  cases w with
  | true => exact endAlike_compute h m.dest d _
  | false => exact endAlike_compute h .I d _

theorem endAlike_complement (m : Mode1) (b : Byte) : EndAlike s u (complement m b s) (complement m b u) := by
  refine endAlike_withOperands h _ ?_
  simp only [h.store.operand_eq, h.cfg]
  exact endAlike_compute h m.cls b _

theorem endAlike_move (m : Mode2) (d b : Byte) : EndAlike s u (move m d b s) (move m d b u) := by
  refine endAlike_withOperands h _ ?_
  rw [h.store.operand_eq]
  exact endAlike_writeBack h m.dest d _

theorem endAlike_jump {cond cond' : Bool} (hc : cond = cond') (m : Mode1) (b : Byte) :
    EndAlike s u (jump cond m b s) (jump cond' m b u) := by
  subst hc
  cases cond with
  | false => exact endAlike_next h
  | true =>
    refine endAlike_withOperands h _ ?_
    simp only [h.store.operand_eq]
    split
    · exact endAlike_raise h _
    · exact endAlike_setPc h _

theorem endAlike_interrupt (m : Mode1) (b : Byte) : EndAlike s u (interrupt m b s) (interrupt m b u) := by
  have hax : s.readReg codeAX = u.readReg codeAX := h.store.operand_eq .R codeAX
  refine endAlike_withOperands h _ ?_
  simp only [h.store.operand_eq, hax]
  split
  · exact endAlike_emit h _
  · split
    · exact endAlike_emit h _
    · exact endAlike_raise h _

/-- Every instruction ends alike from states that agree on what it reads, MOP apart. -/
theorem exec_endAlike (i : Instr) : EndAlike s u (exec i s) (exec i u) := by
  cases form i with
  | nop ty => exact endAlike_next h
  | hlt ty => exact endAlike_halt h .halt
  | int m b => simpa only [exec_int] using endAlike_interrupt h m b
  | mov m d b => simpa only [exec_mov] using endAlike_move h m d b
  | movMop k => exact endAlike_setMop h _
  | binary e he m d b => simpa only [exec_binary he] using endAlike_binop h e.2.1 e.2.2 m d b
  | notR c => exact endAlike_complement h .reg c
  | notM a => exact endAlike_complement h .mem a
  | jmp m b => simpa only [exec_jmp] using endAlike_jump h rfl m b
  | jz m b => simpa only [exec_jz] using endAlike_jump h h.ZF m b
  | jc m b => simpa only [exec_jc] using endAlike_jump h h.CF m b

end

/-- Settles O44: the two states agree but for MOP. -/
theorem storedValuesIgnoreMop : Obligations.StoredValuesIgnoreMop := by
  intro i s b
  have h : AlikeButMop s { s with flags := { s.flags with MOP := b } } := ⟨⟨rfl, rfl, rfl⟩, rfl, rfl, rfl, rfl⟩
  obtain ⟨t, u, ev, ht, hu, hstore, hpc, htlog, hulog, _⟩ := exec_endAlike h i
  exact ⟨t, u, ht, hu, hstore.hi, hstore.lo, hstore.mem, hpc, by rw [htlog, hulog]⟩

/-! ### A whole step from two states -/

theorem bytesFromPc_congr {s u : State} (h : AlikeButMop s u) : s.bytesFromPc = u.bytesFromPc := by
  simp only [State.bytesFromPc, h.store.mem, h.pc]

theorem AlikeButMop.fetched {s u : State} (h : AlikeButMop s u) (n : Nat) : AlikeButMop (s.fetched n) (u.fetched n) :=
  ⟨⟨h.store.hi, h.store.lo, h.store.mem⟩, by simp only [State.fetched, h.pc], h.cfg, h.CF, h.ZF⟩

theorem AlikeButMop.fetchedPastEnd {s u : State} (h : AlikeButMop s u) :
    AlikeButMop s.fetchedPastEnd u.fetchedPastEnd :=
  ⟨⟨h.store.hi, h.store.lo, h.store.mem⟩, rfl, h.cfg, h.CF, h.ZF⟩

/-- Before the notification, steps from states that agree on what they read have ended alike. -/
theorem StepReaches.endAlike {s u x y : State} {d : Except DecodeError (Instr × List Byte)} (h : AlikeButMop s u)
    (hx : StepReaches s d x) (hy : StepReaches u d y) : EndAlike s u (.next x) (.next y) := by
  have hpc := congrArg BitVec.toNat h.pc
  cases hx with
  | endOfMemory =>
    cases hy with
    | endOfMemory => exact endAlike_halt h .endOfMemory
    | fatalFetch => omega
  | fatalFetch =>
    cases hy with
    | endOfMemory => omega
    | fatalFetch => exact endAlike_raise h.fetchedPastEnd _
  | unknownOpcode op => cases hy; exact endAlike_raise (h.fetched 2) _
  | unknownMode op ty => cases hy; exact endAlike_raise (h.fetched 2) _
  | ran i rest _ _ hx =>
    cases hy with
    | ran _ _ _ _ hy =>
      have hexec := exec_endAlike (h.fetched (encode i).length) i
      rwa [hx, hy] at hexec

/-- Settles O43: both steps fetch the same bytes, and end alike. -/
theorem stepIgnoresHiddenState : Obligations.StepIgnoresHiddenState := by
  intro s u s' u' hread hs hu
  obtain ⟨h, hmop⟩ := readByStep_eq_iff.1 hread
  obtain ⟨x, hx, rfl⟩ := reaches_of_step hs
  obtain ⟨y, hy, rfl⟩ := reaches_of_step hu
  rw [← bytesFromPc_congr h] at hy
  obtain ⟨_, _, ev, ⟨⟩, ⟨⟩, _, _, hxlog, hylog, hsame⟩ := hx.endAlike h hy
  refine ⟨hsame hmop, ev, ?_, ?_⟩
  · rw [notify_log_snapshot, hxlog]
  · rw [notify_log_snapshot, hylog]

/-! ### The parameter of NOT -/

section
variable {r r' : Int} (h : r % 256 = r' % 256)
include h

theorem ofInt_eight_congr : BitVec.ofInt 8 r = BitVec.ofInt 8 r' := by
  apply BitVec.eq_of_toNat_eq
  rw [BitVec.toNat_ofInt, BitVec.toNat_ofInt]
  omega

theorem ofInt_four_congr : BitVec.ofInt 4 r = BitVec.ofInt 4 r' := by
  apply BitVec.eq_of_toNat_eq
  rw [BitVec.toNat_ofInt, BitVec.toNat_ofInt]
  omega

/-- A write-back stores the low byte of its result only (R103). -/
theorem writeBack_congr_emod (s : State) (c : OpClass) (b : Byte) : s.writeBack c b r = s.writeBack c b r' := by
  cases c with
  | R => simp only [State.writeBack, State.writeReg, State.writeView, ofInt_eight_congr h, ofInt_four_congr h]
  | M => simp only [State.writeBack, State.memWrite, ofInt_eight_congr h]
  | I => rfl

theorem maskedResult_congr_emod (mop : Bool) : maskedResult r mop = maskedResult r' mop := by
  rw [maskedResult, maskedResult, ofInt_eight_congr h]

end

/-- The two results of NOT differ by 256 (R138). -/
theorem notResult_emod (p q : NotResult) (a : Nat) : notResult p a % 256 = notResult q a % 256 := by
  rw [notResult_eq, notResult_eq]
  split <;> split <;> omega

/-- From states that differ in `P_NOT_RESULT` at most, the results are equal mod 256, so only the range test of the Flag
Unit can tell them apart. -/
theorem complement_congr {s u : State} (hstore : SameStore s u) (hflags : s.flags = u.flags)
    (hbad : s.cfg.badReg = u.cfg.badReg) (m : Mode1) (b : Byte) :
    ∃ t v, complement m b s = .next t ∧ complement m b u = .next v ∧ SameStore t v ∧
      t.flags.ZF = v.flags.ZF ∧ t.flags.SF = v.flags.SF ∧ t.flags.PF = v.flags.PF := by
  have herr := operandError_congr hbad [(m.cls, b)]
  rcases complement_cases m b s with ⟨e, he, hs⟩ | ⟨he, hs⟩
  · have hu : complement m b u = .next (u.raise e) := by rw [complement, withOperands, ← herr, he]
    exact ⟨_, _, hs, hu, ⟨by simp [hstore.hi], by simp [hstore.lo], by simp [hstore.mem]⟩, by simp [hflags]⟩
  · have hu := complement_of_check (herr ▸ he)
    have hcut := notResult_emod s.cfg.notResult u.cfg.notResult (s.operand m.cls b).toNat
    have hstore' := hstore.writeBack m.cls b (notResult s.cfg.notResult (s.operand m.cls b).toNat)
    rw [writeBack_congr_emod hcut u] at hstore'
    rw [← hstore.operand_eq] at hu
    refine ⟨_, _, hs, hu, ⟨hstore'.hi, hstore'.lo, hstore'.mem⟩, ?_⟩
    simp [flagUnit, hflags, maskedResult_congr_emod hcut]

/-- Settles O17: both forms are `complement` of their mode. -/
theorem notParameterOnlyMovesCarry : Obligations.NotParameterOnlyMovesCarry := by
  intro i b s hi
  obtain ⟨m, hexec⟩ : ∃ m : Mode1, ∀ s, exec i s = complement m b s := by
    rcases hi with rfl | rfl
    · exact ⟨.reg, fun _ => rfl⟩
    · exact ⟨.mem, fun _ => rfl⟩
  obtain ⟨t, u, ht, hu, hstore, hflags⟩ :=
    complement_congr (s := { s with cfg := { s.cfg with notResult := .complementI32 } })
      (u := { s with cfg := { s.cfg with notResult := .zext8 } }) ⟨rfl, rfl, rfl⟩ rfl rfl m b
  exact ⟨t, u, (hexec _).trans ht, (hexec _).trans hu, hstore.hi, hstore.lo, hstore.mem, hflags⟩

end Sys2Proof.Machine
end

section
/-! PROOFS. The step by the bytes at `pc`, and what every step keeps: the invariant, the parameters and `running`
(10_state.md rules R31, R35, R37 and R40, 40_execution_cycle.md R94 to R99). -/

namespace Sys2Proof

/-! ### Type bytes that are not accepted -/

section
variable {op ty : Byte}

theorem headerOne_of_unaccepted (h : ty.toNat = 2 ∨ 4 ≤ ty.toNat) (mk : Mode1 → Byte → Instr) :
    headerOne op ty mk = .badMode op ty := by
  cases hmode : Mode1.ofType ty with
  | none => simp only [headerOne, hmode]
  | some m => obtain rfl := Mode1.typeByte_of_ofType hmode; cases m <;> simp [Mode1.typeByte] at h

theorem headerTwo_of_unaccepted (h : ty.toNat = 4 ∨ 7 ≤ ty.toNat) (mk : Mode2 → Byte → Byte → Instr) :
    headerTwo op ty mk = .badMode op ty := by
  cases hmode : Mode2.ofType ty with
  | none => simp only [headerTwo, hmode]
  | some m => obtain rfl := Mode2.typeByte_of_ofType hmode; cases m <;> simp [Mode2.typeByte] at h

/-- MOV alone has a use for type 0x04 (R66). -/
theorem headerMov_of_unaccepted (h : 7 ≤ ty.toNat) : headerMov op ty = .badMode op ty := by
  rw [headerMov, if_neg (by omega), headerTwo_of_unaccepted (.inr h)]

/-- NOT has no immediate mode (R67). -/
theorem headerNot_of_unaccepted (h : 2 ≤ ty.toNat) : headerNot op ty = .badMode op ty := by
  cases hmode : Mode1.ofType ty with
  | none => simp only [headerNot, hmode]
  | some m =>
    obtain rfl := Mode1.typeByte_of_ofType hmode
    cases m with
    | reg | mem => simp [Mode1.typeByte] at h
    | imm => rfl

/-- A type byte outside its opcode's modes is rejected (R73, R98). -/
theorem decodeHeader_of_unaccepted
    (h : (op.toNat ∈ [0x02, 0x17, 0x18, 0x19] ∧ (ty.toNat = 2 ∨ 4 ≤ ty.toNat)) ∨
      (op.toNat = 0x10 ∧ 7 ≤ ty.toNat) ∨
      (op.toNat ∈ [0x11, 0x12, 0x13, 0x14, 0x15, 0x1A, 0x1B, 0x1C] ∧ (ty.toNat = 4 ∨ 7 ≤ ty.toNat)) ∨
      (op.toNat = 0x16 ∧ 2 ≤ ty.toNat)) : decodeHeader op ty = .badMode op ty := by
  simp only [List.mem_cons, List.not_mem_nil, or_false] at h
  unfold decodeHeader
  split
  case h_1 | h_2 => omega
  case h_17 => simp_all
  case h_3 | h_11 | h_12 | h_13 => exact headerOne_of_unaccepted (by omega) _
  case h_4 => exact headerMov_of_unaccepted (by omega)
  case h_10 => exact headerNot_of_unaccepted (by omega)
  all_goals exact headerTwo_of_unaccepted (by omega) _

end

namespace Machine

/-! ### The step of an instruction -/

/-- Settles O27: the fetch comes to the instruction `decode` reads. -/
theorem stepRunsDecodedInstruction : Obligations.StepRunsDecodedInstruction := by
  intro s i rest hd
  have hfetch := fetchInstr_decode s
  rw [hd] at hfetch
  obtain ⟨_, hrun⟩ := hfetch
  simp only [step, hrun]

/-- With opcode byte 0x01 and a type byte at `pc`, the step fetches a HLT and halts (R76, R124). -/
theorem step_of_hlt {s : State} (hpc : s.pc.toNat ≤ 254) (hop : s.mem.read s.pc.toNat = 0x01) :
    step s = .next ((s.fetched 2).halt .halt).notify := by
  have hf : fetchInstr s = .run (.hlt (s.mem.read (s.pc.toNat + 1))) (s.fetched 2) := by
    rw [fetchInstr_of_pc_le hpc, hop]
    rfl
  simp only [step, hf]
  rfl

/-- Settles O24: the two meanings, and the step on each opcode byte. -/
theorem nopHltEffect : Obligations.NopHltEffect :=
  fun _ _ => ⟨rfl, rfl, step_of_nop, step_of_hlt⟩

/-! ### The step that runs no instruction -/

/-- Settles O28: the statement is about `pc` alone, whatever the bytes in memory. -/
theorem endOfMemoryHalts : Obligations.EndOfMemoryHalts := fun _ => step_of_pc_ge

/-- Settles O29: within memory, truncated bytes are a fatal fetch. -/
theorem fetchPastEndIsFatal : Obligations.FetchPastEndIsFatal := by
  intro s hpc hd
  obtain ⟨u, hu, hstep⟩ := step_reaches s
  rw [hd] at hu
  cases hu with
  | endOfMemory hge => omega
  | fatalFetch => exact hstep

/-- Settles O31: the fetch stops at the header with a recoverable error, which adds its event only. -/
theorem unacceptedModeIsDropped : Obligations.UnacceptedModeIsDropped := by
  intro s hpc op ty h
  have hf : fetchInstr s = .error (.unknownAddressingMode op ty) (s.fetched 2) := by
    rw [fetchInstr_of_pc_le hpc, decodeHeader_of_unaccepted h]
    rfl
  rw [step_of_fetchInstr_error hf, raise_of_not_fatal rfl, fetched_log]

/-! ### What every step keeps -/

/-- The parameters stay (R9). -/
theorem StepReaches.cfg {s u : State} {d : Except DecodeError (Instr × List Byte)} (h : StepReaches s d u) :
    u.cfg = s.cfg := by
  cases h with
  | endOfMemory => rfl
  | fatalFetch => rfl
  | unknownOpcode | unknownMode => simp
  | ran i rest _ hpc hexec => exact (effect_of_exec hexec).cfg

/-- Settles O32: the state the step reaches, notified. -/
theorem everyStepCompletes : Obligations.EveryStepCompletes := by
  intro s
  obtain ⟨u, hu, hstep⟩ := step_reaches s
  exact ⟨u.notify, hstep, hu.cfg⟩

/-- Before the notification, `running` is cleared just by an event that halts (R40, R150, R151). -/
theorem StepReaches.running {s u : State} {d : Except DecodeError (Instr × List Byte)} (h : StepReaches s d u) :
    ∃ ev : List Event, u.log = ev ++ s.log ∧ u.running = (s.running && !ev.any Event.halts) := by
  cases h with
  | endOfMemory => exact ⟨[.halted .endOfMemory], rfl, by simp [Event.halts]⟩
  | fatalFetch =>
    exact ⟨[.error (.uncaughtExecutionFault (.fetchOutOfBounds 256))], rfl, by simp [Event.halts, RuntimeError.fatal]⟩
  | unknownOpcode op => exact ⟨[.error (.unknownOpcode op)], rfl, by simp [Event.halts]⟩
  | unknownMode op ty => exact ⟨[.error (.unknownAddressingMode op ty)], rfl, by simp [Event.halts]⟩
  | ran i rest _ hpc hexec =>
    obtain ⟨ev, hlog, _, _, hrunning, _⟩ := (effect_of_exec hexec).ev
    exact ⟨ev, hlog, hrunning⟩

/-- Settles O36: the notification neither halts nor touches `running`. -/
theorem runningClearedOnlyByHalts : Obligations.RunningClearedOnlyByHalts := by
  intro s t hstep
  obtain ⟨u, hu, rfl⟩ := reaches_of_step hstep
  obtain ⟨ev, hlog, hrunning⟩ := hu.running
  exact ⟨ev, by rw [notify_log_snapshot, hlog], hrunning⟩

/-! ### The invariant -/

/-- The invariant is about memory, `pc`, IF, OF and CF only. -/
theorem State.Inv.congr {s t : State} (h : s.Inv) (hmem : t.mem = s.mem) (hpc : t.pc = s.pc)
    (hflags : t.flags = s.flags) : t.Inv :=
  ⟨hmem ▸ h.memWf, hpc ▸ h.pcRange, hflags ▸ h.ifZero, hflags ▸ h.ofIsCf⟩

theorem State.Inv.raise {s : State} (h : s.Inv) (e : RuntimeError) : (s.raise e).Inv :=
  h.congr (raise_mem s e) (raise_pc s e) (raise_flags s e)

/-- A fetch within memory moves `pc` to 256 at most (R31, R32). -/
theorem State.Inv.fetched {s : State} (h : s.Inv) {n : Nat} (hpc : s.pc.toNat + n ≤ 256) : (s.fetched n).Inv :=
  ⟨h.memWf, by rw [fetched_pc hpc]; exact hpc, h.ifZero, h.ofIsCf⟩

/-- An instruction moves `pc` to a byte's value or not at all. -/
theorem Effect.inv {i : Instr} {s t : State} (heff : Effect i s t) (h : s.Inv) : t.Inv := by
  refine ⟨heff.wf h.memWf, ?_, heff.IF.trans h.ifZero, heff.ofcf h.ofIsCf⟩
  rw [heff.pc_toNat h.pcRange]
  cases htarget : jumpTarget i s with
  | none => exact h.pcRange
  | some a => exact (jumpTarget_lt htarget).le

theorem StepReaches.inv {s u : State} {d : Except DecodeError (Instr × List Byte)} (hu : StepReaches s d u)
    (h : s.Inv) : u.Inv := by
  cases hu with
  | endOfMemory => exact h.congr rfl rfl rfl
  | fatalFetch => exact .raise (s := s.fetchedPastEnd) ⟨h.memWf, le_rfl, h.ifZero, h.ofIsCf⟩ _
  | unknownOpcode op hpc | unknownMode op ty hpc => exact (h.fetched (by omega)).raise _
  | ran i rest _ hpc hexec => exact (effect_of_exec hexec).inv (h.fetched hpc)

/-- Settles O37: each state a step can reach has the invariant, and the notification keeps it. -/
theorem stepKeepsInvariant : Obligations.StepKeepsInvariant := by
  intro s t h hstep
  obtain ⟨u, hu, rfl⟩ := reaches_of_step hstep
  exact (hu.inv h).congr rfl rfl rfl

/-- Settles O38: memory at reset lists nothing, and `pc` and the flags in question are 0. -/
theorem resetHasInvariant : Obligations.ResetHasInvariant := ⟨reset_mem_wf, Nat.zero_le _, rfl, rfl⟩

end Machine

end Sys2Proof
end

section
/-! PROOFS. What the host can do between steps: reset, load, step, run and stop (70_reset_and_hazards.md rules R166 to
R175). -/

namespace Sys2Proof.Machine

/-! ### Load -/

/-- Stored bytes read back at their addresses, and every other address reads as before (R49, R170). -/
theorem storeBytes_read {s : State} (a : Nat) (bs : List Byte) (hlen : a + bs.length ≤ memorySize)
    (hwf : s.mem.wf = true) (x : Nat) :
    (s.storeBytes a bs).mem.read x = if a ≤ x then (bs[x - a]?).getD (s.mem.read x) else s.mem.read x := by
  induction bs generalizing s a with
  | nil => simp [State.storeBytes]
  | cons b bs ih =>
    rw [List.length_cons] at hlen
    rw [State.storeBytes, ih (a + 1) (by omega) (Memory.write_wf b (by omega) hwf), Memory.read_write _ _ _ hwf]
    rcases Nat.lt_trichotomy x a with hlt | rfl | hgt
    · simp [show ¬ a + 1 ≤ x by omega, show ¬ a ≤ x by omega, show x ≠ a by omega]
    · simp
    · rw [show x - a = (x - (a + 1)) + 1 by omega]
      simp [show a + 1 ≤ x by omega, show a ≤ x by omega, show x ≠ a by omega]

/-- A load changes memory at most. -/
theorem load_frame (s : State) (image : List Byte) : { s.load image with mem := s.mem } = s := by
  rcases load_cases s image with ⟨_, _, hload⟩ | ⟨_, hload⟩
  · rw [hload, storeBytes_frame]
  · rw [hload]

/-- Settles O49: the image is stored, or the load is refused. -/
theorem loadWritesImage : Obligations.LoadWritesImage := by
  intro s image hwf
  refine ⟨fun hrun hlen x => ?_, fun hrun => ?_, fun hlen => ?_, load_frame s image⟩
  · rw [State.load, if_pos ⟨hrun, hlen⟩, storeBytes_read 0 image (by rwa [Nat.zero_add]) hwf, if_pos x.zero_le, Nat.sub_zero]
  · rw [State.load, if_neg (by simp [hrun])]
  · rw [State.load, if_neg (by simp [hlen])]

/-! ### Run and stop -/

/-- Every tick answers a state (R172). -/
theorem tick_completes (s : State) : ∃ t, tick s = .next t := by
  cases hrun : s.running with
  | true =>
    obtain ⟨t, hstep, _⟩ := everyStepCompletes s
    exact ⟨t, (tick_of_running hrun).trans hstep⟩
  | false => exact ⟨s, by simp [tick, hrun]⟩

theorem runTicks_completes (n : Nat) (s : State) : ∃ t, runTicks n s = .next t := by
  induction n generalizing s with
  | zero => exact ⟨s, rfl⟩
  | succ n ih =>
    obtain ⟨t, ht⟩ := tick_completes s
    rw [runTicks_succ_of_tick ht]
    exact ih t

theorem runTicks_one (s : State) : runTicks 1 s = tick s := by
  obtain ⟨t, ht⟩ := tick_completes s
  rw [runTicks_succ_of_tick ht, ht, runTicks]

/-- Settles O48: the last of `n + 1` ticks is a tick of the state that `n` ticks reach. -/
theorem runStepsUntilHalted : Obligations.RunStepsUntilHalted := by
  refine fun s => ⟨rfl, fun n => ?_⟩
  obtain ⟨u, hu⟩ := runTicks_completes n s.startRun
  have hnext : run (n + 1) s = tick u := by rw [run, runTicks_add hu, runTicks_one]
  refine ⟨u, hu, fun hrun => ?_, fun hrun => ?_⟩
  · rw [hnext, tick_of_running hrun]
  · rw [hnext, tick, hrun]
    rfl

/-- Settles O47: `running` is 0 after a stop, so ticks do nothing. -/
theorem stopEndsTheRun : Obligations.StopEndsTheRun :=
  fun s => ⟨rfl, runTicks_of_not_running (stop_running s), rfl⟩

/-! ### Every host action -/

/-- What every action of the host keeps (R152, R175): the invariant, the parameters and the events so far. -/
structure Keeps (s t : State) : Prop where
  inv : t.Inv
  cfg : t.cfg = s.cfg
  log : ∃ ev : List Event, t.log = ev ++ s.log

theorem keeps_hostReset (s : State) : Keeps s s.hostReset :=
  ⟨resetHasInvariant.congr rfl rfl rfl, rfl, [], rfl⟩

theorem keeps_load {s : State} (h : s.Inv) (image : List Byte) : Keeps s (s.load image) := by
  have hframe := load_frame s image
  have hpc : (s.load image).pc = s.pc := (congrArg State.pc hframe :)
  have hflags : (s.load image).flags = s.flags := (congrArg State.flags hframe :)
  exact ⟨⟨load_wf image h.memWf, hpc ▸ h.pcRange, hflags ▸ h.ifZero, hflags ▸ h.ofIsCf⟩,
    (congrArg State.cfg hframe :), [], (congrArg State.log hframe :)⟩

theorem step_keeps {s : State} (h : s.Inv) : ∃ t, step s = .next t ∧ Keeps s t := by
  obtain ⟨t, hstep, hcfg⟩ := everyStepCompletes s
  obtain ⟨ev, hlog, _⟩ := stepEventsInOrder s t hstep
  exact ⟨t, hstep, stepKeepsInvariant s t h hstep, hcfg, t.snapshot :: ev, hlog⟩

theorem tick_keeps {s : State} (h : s.Inv) : ∃ t, tick s = .next t ∧ Keeps s t := by
  cases hrun : s.running with
  | true => rw [tick_of_running hrun]; exact step_keeps h
  | false => exact ⟨s, by simp [tick, hrun], h, rfl, [], rfl⟩

/-- Settles O39: action by action. -/
theorem hostActionsKeepInvariant : Obligations.HostActionsKeepInvariant := by
  intro a s h
  suffices hkeeps : ∃ t, hostAct a s = .next t ∧ Keeps s t by
    obtain ⟨t, ht, ⟨hinv, hcfg, hlog⟩⟩ := hkeeps
    exact ⟨t, ht, hinv, hcfg, hlog⟩
  cases a with
  | reset => exact ⟨_, rfl, keeps_hostReset s⟩
  | load image => exact ⟨_, rfl, keeps_load h image⟩
  | step => exact step_keeps h
  | startRun => exact ⟨_, rfl, h.congr rfl rfl rfl, rfl, [], rfl⟩
  | tick => exact tick_keeps h
  | stop => exact ⟨_, rfl, h.congr rfl rfl rfl, rfl, [.halted .stop], rfl⟩

end Sys2Proof.Machine
end

section
/-! PROOFS. What each instruction can do, said once for the statements that ask which error it raised, which flags it
changed and where it wrote: it is abandoned at its first invalid register code, or it completes in one of eight ways
(40_execution_cycle.md rules R100 to R106, 41_flag_unit.md R121). -/

namespace Sys2Proof.Machine

/-! ### The register code that abandons an instruction -/

/-- The register codes among an instruction's operands. -/
def registerCodes (os : List (OpClass × Byte)) : List RegCode :=
  os.filterMap fun o => if o.1 = .R then some o.2 else none

/-- The register code that abandons an instruction: the first invalid one, dest first, where the operands are resolved
and `P_BADREG` is `ABANDON` (R100, R143). -/
def abandonedAt (i : Instr) (s : State) : Option RegCode :=
  if s.cfg.badReg = .abandon ∧ resolvesOperands i s = true then
    (registerOperands i).find? fun c => !validCode c
  else none

theorem abandonedAt_of_unresolved {i : Instr} {s : State} (h : resolvesOperands i s = false) :
    abandonedAt i s = none := by
  simp [abandonedAt, h]

theorem abandonedAt_of_no_registers {i : Instr} (h : registerOperands i = []) (s : State) : abandonedAt i s = none := by
  simp [abandonedAt, h]

/-- An operand check fails at the first invalid register code (R100). -/
theorem operandError_eq_find (s : State) (os : List (OpClass × Byte)) :
    s.operandError os =
      if s.cfg.badReg = .abandon then ((registerCodes os).find? fun c => !validCode c).map .unknownRegister else none := by
  rw [operandError_eq]
  induction os with
  | nil => simp [registerCodes]
  | cons o os ih =>
    obtain ⟨c, b⟩ := o
    rw [List.findSome?_cons, ih]
    cases hbad : s.cfg.badReg with
    | readZero => cases c <;> simp [State.registerError, hbad]
    | abandon =>
      cases c with
      | R => cases hv : validCode b <;> simp [State.registerError, registerCodes, hbad, hv]
      | M | I => simp [State.registerError, registerCodes]

/-! ### The ways to complete -/

/-- What the tables of R65, R103 and R121 say of an instruction: whether it runs the Flag Unit, and the dest operand it
writes. The class is `I` for an instruction that writes none (R68). -/
structure Profile (i : Instr) (runsUnit : Bool) (c : OpClass) (d : Byte) : Prop where
  unit : runsFlagUnit i = runsUnit
  stored : storedTo i = if c = .M then some d else none
  register : registerWrittenBy i = if c = .R then some d else none

/-- The states an instruction that is not abandoned can reach. -/
inductive Completes (i : Instr) (s : State) : State → Prop where
  | keeps (p : Profile i false .I 0) : Completes i s s
  | halts (p : Profile i false .I 0) (r : HaltReason) : Completes i s (s.halt r)
  | sends (p : Profile i false .I 0) (n ax : Byte) : Completes i s (s.emit (.interrupt n ax))
  | unknownInterrupt (p : Profile i false .I 0) (m : Mode1) (b : Byte) (hi : i = intOf m b)
      (hn : 2 ≤ (s.operand m.cls b).toNat) : Completes i s (s.raise (.unknownInterrupt (s.operand m.cls b)))
  | moves (c : OpClass) (d : Byte) (p : Profile i false c d) (r : Int) : Completes i s (s.writeBack c d r)
  | computes (c : OpClass) (d : Byte) (p : Profile i true c d) (r : Int) :
      Completes i s ((s.writeBack c d r).updateFlags r)
  | setsMop (p : Profile i false .I 0) (k : Imm) (hi : i = .movMop k) (b : Bool) :
      Completes i s { s with flags := { s.flags with MOP := b } }
  | jumps (p : Profile i false .I 0) (a : Pc) : Completes i s { s with pc := a }

/-- The states an instruction can reach: abandoned, or completed. -/
inductive ExecReaches (i : Instr) (s : State) : State → Prop where
  | abandoned (c : RegCode) (hc : abandonedAt i s = some c) : ExecReaches i s (s.raise (.unknownRegister c))
  | completed (t : State) (hc : abandonedAt i s = none) (ht : Completes i s t) : ExecReaches i s t

/-- An instruction that resolves its operands is abandoned where their check fails. -/
theorem reaches_of_withOperands {i : Instr} {s : State} {os : List (OpClass × Byte)} {k : Result}
    (hres : resolvesOperands i s = true) (hos : registerOperands i = registerCodes os)
    (hk : ∃ t, k = .next t ∧ Completes i s t) : ∃ t, withOperands s os k = .next t ∧ ExecReaches i s t := by
  have herr : s.operandError os = (abandonedAt i s).map .unknownRegister := by
    rw [operandError_eq_find, abandonedAt, hos]
    split <;> simp_all
  obtain ⟨t, rfl, ht⟩ := hk
  unfold withOperands
  rw [herr]
  cases hc : abandonedAt i s with
  | none => exact ⟨t, rfl, .completed t hc ht⟩
  | some c => exact ⟨_, rfl, .abandoned c hc⟩

theorem jump_reaches {i : Instr} {m : Mode1} {b : Byte} {s : State} {cond : Bool} (p : Profile i false .I 0)
    (hres : resolvesOperands i s = cond) (hos : registerOperands i = registerCodes [(m.cls, b)]) :
    ∃ t, jump cond m b s = .next t ∧ ExecReaches i s t := by
  cases cond with
  | false => exact ⟨s, rfl, .completed s (abandonedAt_of_unresolved hres) (.keeps p)⟩
  | true =>
    refine reaches_of_withOperands hres hos ⟨_, if_neg ?_, .jumps p _⟩
    exact Nat.not_le.2 (s.operand m.cls b).isLt

theorem interrupt_reaches (m : Mode1) (b : Byte) (s : State) :
    ∃ t, interrupt m b s = .next t ∧ ExecReaches (intOf m b) s t := by
  have p : Profile (intOf m b) false .I 0 := by cases m <;> exact ⟨rfl, rfl, rfl⟩
  refine reaches_of_withOperands (by cases m <;> rfl) (by cases m <;> rfl) ?_
  dsimp only
  split
  · exact ⟨_, rfl, .sends p 0 _⟩
  · next h0 =>
    split
    · exact ⟨_, rfl, .sends p 1 _⟩
    · next h1 => exact ⟨_, rfl, .unknownInterrupt p m b rfl (by bv_omega)⟩

/-- What the tables say of an ALU instruction: it runs the Flag Unit, and always resolves its two operands. -/
theorem binary_tables {e : (Mode2 → Byte → Byte → Instr) × (Nat → Nat → Int) × Bool} (he : e ∈ binaryTable)
    (m : Mode2) (d b : Byte) (s : State) :
    runsFlagUnit (e.1 m d b) = true ∧ resolvesOperands (e.1 m d b) s = true ∧
      registerOperands (e.1 m d b) = registerCodes [(m.dest, d), (m.src, b)] := by
  simp only [binaryTable, List.mem_cons, List.not_mem_nil, or_false] at he
  rcases he with rfl | rfl | rfl | rfl | rfl | rfl | rfl | rfl <;> cases m <;> exact ⟨rfl, rfl, rfl⟩

theorem binop_reaches {e : (Mode2 → Byte → Byte → Instr) × (Nat → Nat → Int) × Bool} (he : e ∈ binaryTable)
    (m : Mode2) (d b : Byte) (s : State) : ∃ t, binop e.2.1 e.2.2 m d b s = .next t ∧ ExecReaches (e.1 m d b) s t := by
  obtain ⟨hunit, hres, hos⟩ := binary_tables he m d b s
  have hstored := storedTo_binary he m d b
  have hregister := registerWrittenBy_binary he m d b
  refine reaches_of_withOperands hres hos ?_
  obtain ⟨mk, f, w⟩ := e
  cases w with
  | true => exact ⟨_, rfl, .computes m.dest d ⟨hunit, by simpa using hstored, by simpa using hregister⟩ _⟩
  | false => exact ⟨_, rfl, .computes .I d ⟨hunit, by simpa using hstored, by simpa using hregister⟩ _⟩

/-- Every instruction answers a next state, and reaches it in one of those ways. -/
theorem exec_reaches (i : Instr) (s : State) : ∃ t, exec i s = .next t ∧ ExecReaches i s t := by
  cases form i with
  | nop ty => exact ⟨s, rfl, .completed _ (abandonedAt_of_no_registers rfl s) (.keeps ⟨rfl, rfl, rfl⟩)⟩
  | hlt ty => exact ⟨_, rfl, .completed _ (abandonedAt_of_no_registers rfl s) (.halts ⟨rfl, rfl, rfl⟩ .halt)⟩
  | int m b => rw [exec_int]; exact interrupt_reaches m b s
  | mov m d b =>
    rw [exec_mov]
    exact reaches_of_withOperands (by cases m <;> rfl) (by cases m <;> rfl)
      ⟨_, rfl, .moves m.dest d ⟨by cases m <;> rfl, storedTo_mov m d b, registerWrittenBy_mov m d b⟩ _⟩
  | movMop k => exact ⟨_, rfl, .completed _ (abandonedAt_of_no_registers rfl s) (.setsMop ⟨rfl, rfl, rfl⟩ k rfl _)⟩
  | binary e he m d b => rw [exec_binary he]; exact binop_reaches he m d b s
  | notR c => exact reaches_of_withOperands rfl rfl ⟨_, rfl, .computes .R c ⟨rfl, rfl, rfl⟩ _⟩
  | notM a => exact reaches_of_withOperands rfl rfl ⟨_, rfl, .computes .M a ⟨rfl, rfl, rfl⟩ _⟩
  | jmp m b =>
    rw [exec_jmp]
    exact jump_reaches (by cases m <;> exact ⟨rfl, rfl, rfl⟩) (by cases m <;> rfl) (by cases m <;> rfl)
  | jz m b =>
    rw [exec_jz]
    exact jump_reaches (by cases m <;> exact ⟨rfl, rfl, rfl⟩) (by cases m <;> rfl) (by cases m <;> rfl)
  | jc m b =>
    rw [exec_jc]
    exact jump_reaches (by cases m <;> exact ⟨rfl, rfl, rfl⟩) (by cases m <;> rfl) (by cases m <;> rfl)

/-- An instruction has one outcome, so the state it answers is one of those. -/
theorem reaches_of_exec {i : Instr} {s t : State} (h : exec i s = .next t) : ExecReaches i s t := by
  obtain ⟨u, hu, hreach⟩ := exec_reaches i s
  rw [h] at hu
  cases hu
  exact hreach

/-! ### Errors -/

theorem not_validCode (c : RegCode) : (!validCode c) = decide (c.toNat = 0 ∨ 19 ≤ c.toNat) := by
  rw [← ofCode_isNone, validCode, Option.not_isSome]

/-- Settles O25: that code is the one the instruction is abandoned at. -/
theorem invalidRegisterAbandons : Obligations.InvalidRegisterAbandons := by
  intro i s c hbad hres hfind
  have hc : abandonedAt i s = some c := by
    rw [abandonedAt, if_pos ⟨hbad, hres⟩]
    simpa only [not_validCode] using hfind
  obtain ⟨t, ht, hreach⟩ := exec_reaches i s
  cases hreach with
  | abandoned c' hc' =>
    obtain rfl : c' = c := by simpa [hc] using hc'.symm
    rw [ht, raise_of_not_fatal rfl]
  | completed _ hc' => rw [hc] at hc'; cases hc'

/-- A well-formed instruction is one whose register operands are all valid (R68). -/
theorem wellFormed_eq_all (i : Instr) : WellFormed i = (registerOperands i).all regCodeOk := by
  cases i <;> simp [WellFormed, registerOperands]

theorem abandonedAt_of_wellFormed {i : Instr} (h : WellFormed i = true) (s : State) : abandonedAt i s = none := by
  have hfind : ((registerOperands i).find? fun c => !validCode c) = none := by
    simpa [validCode_eq_regCodeOk, wellFormed_eq_all] using h
  rw [abandonedAt, hfind, ite_self]

/-- Settles O26: of the ways to complete, `UnknownInterrupt` alone adds an error. -/
theorem wellFormedRaisesNoError : Obligations.WellFormedRaisesNoError := by
  intro i s hwf
  obtain ⟨t, ht, hreach⟩ := exec_reaches i s
  refine ⟨t, ht, ?_⟩
  cases hreach with
  | abandoned c hc => rw [abandonedAt_of_wellFormed hwf] at hc; cases hc
  | completed _ _ hcompletes =>
    cases hcompletes with
    | unknownInterrupt p m b hi hn => exact .inl ⟨m, b, hi, hn, raise_log s _⟩
    | keeps | setsMop | jumps => exact .inr rfl
    | halts | sends => exact .inr rfl
    | moves c d p r => exact .inr (by rw [writeBack_log])
    | computes c d p r => exact .inr (by rw [updateFlags_log, writeBack_log])

/-! ### Flags -/

/-- Settles O40: the Flag Unit keeps MOP, and no other way to complete sets it but that of `MOV MOP`. -/
theorem mopWrittenOnlyByMovMop : Obligations.MopWrittenOnlyByMovMop := by
  intro i s t ht
  refine ⟨(effect_of_exec ht).IF, fun hmop => ?_⟩
  cases reaches_of_exec ht with
  | abandoned c => exact absurd (by rw [raise_flags]) hmop
  | completed _ _ hcompletes =>
    cases hcompletes with
    | setsMop p k hi b => exact ⟨k, hi⟩
    | keeps | halts | sends | jumps => exact absurd rfl hmop
    | unknownInterrupt => exact absurd (by rw [raise_flags]) hmop
    | moves => exact absurd (by rw [writeBack_flags]) hmop
    | computes => exact absurd (by simp) hmop

/-- Settles O41: the instructions that run the Flag Unit complete in one way only, which leaves the history. -/
theorem statusFlagsWrittenByNine : Obligations.StatusFlagsWrittenByNine := by
  intro i s t ht
  cases reaches_of_exec ht with
  | abandoned c => exact ⟨fun _ hlog => by simp at hlog, fun _ _ => raise_flags s _, fun _ => by simp⟩
  | completed _ _ hcompletes =>
    cases hcompletes with
    | computes c d p r =>
      exact ⟨fun _ _ => ⟨r, flagsDerived_writeBack_updateFlags s c d r⟩, fun _ hlog => absurd (by simp) hlog,
        fun hunit => by simp [p.unit] at hunit⟩
    | keeps p | halts p | sends p | setsMop p | jumps p =>
      exact ⟨fun hunit => by simp [p.unit] at hunit, fun hunit => by simp [p.unit] at hunit,
        fun _ => ⟨rfl, rfl, rfl, rfl, rfl⟩⟩
    | unknownInterrupt p | moves c d p =>
      exact ⟨fun hunit => by simp [p.unit] at hunit, fun hunit => by simp [p.unit] at hunit, fun _ => by simp⟩

/-! ### Destinations -/

/-- The kind of destination that changed, the others kept (R105): none that an operand names, or registers, or memory.
Status flags may change in any case but that of a jump. -/
inductive ChangedOnly (s t : State) : Prop where
  | control (hhi : t.hi = s.hi) (hlo : t.lo = s.lo) (hmem : t.mem = s.mem) (h : t.pc = s.pc ∨ t.flags = s.flags)
  | registers (hmem : t.mem = s.mem) (hpc : t.pc = s.pc) (hmop : t.flags.MOP = s.flags.MOP)
  | memory (hhi : t.hi = s.hi) (hlo : t.lo = s.lo) (hpc : t.pc = s.pc) (hmop : t.flags.MOP = s.flags.MOP)

theorem changedOnly_writeBack (s : State) (c : OpClass) (d : Byte) (r : Int) : ChangedOnly s (s.writeBack c d r) := by
  cases c with
  | R => exact .registers (writeReg_mem s d r) (writeReg_pc s d r) (by simp)
  | M => exact .memory rfl rfl rfl rfl
  | I => exact .control rfl rfl rfl (.inl rfl)

theorem changedOnly_compute (s : State) (c : OpClass) (d : Byte) (r : Int) :
    ChangedOnly s ((s.writeBack c d r).updateFlags r) := by
  cases c with
  | R => exact .registers (writeReg_mem s d r) (writeReg_pc s d r) (by simp)
  | M => exact .memory rfl rfl rfl rfl
  | I => exact .control rfl rfl rfl (.inl rfl)

theorem ExecReaches.changedOnly {i : Instr} {s t : State} (h : ExecReaches i s t) : ChangedOnly s t := by
  cases h with
  | abandoned c => exact .control (raise_hi s _) (raise_lo s _) (raise_mem s _) (.inl (raise_pc s _))
  | completed _ _ ht =>
    cases ht with
    | keeps | halts | sends | setsMop => exact .control rfl rfl rfl (.inl rfl)
    | unknownInterrupt => exact .control (raise_hi s _) (raise_lo s _) (raise_mem s _) (.inl (raise_pc s _))
    | moves c d p r => exact changedOnly_writeBack s c d r
    | computes c d p r => exact changedOnly_compute s c d r
    | jumps => exact .control rfl rfl rfl (.inr rfl)

/-- A completed instruction writes the dest operand of its profile and no other (R103). -/
theorem Completes.destWritten {i : Instr} {s t : State} (h : Completes i s t) (hwf : s.mem.wf = true) :
    ∃ (unit : Bool) (c : OpClass) (d : Byte) (r : Int), Profile i unit c d ∧ DestWritten c d r s t := by
  cases h with
  | keeps p | halts p | sends p | setsMop p | jumps p => exact ⟨_, _, _, 0, p, fun _ => rfl, fun _ => rfl⟩
  | unknownInterrupt p =>
    exact ⟨_, _, _, 0, p, readReg_congr (raise_hi s _) (raise_lo s _), fun _ => by rw [raise_mem]⟩
  | moves c d p r => exact ⟨_, c, d, r, p, destWritten_writeBack hwf c d r⟩
  | computes c d p r => exact ⟨_, c, d, r, p, (destWritten_writeBack hwf c d r).congr rfl rfl rfl⟩

/-- A bank the code does not reach is not written (R25). -/
theorem RegisterWritten.kept {d q : RegCode} {r : Int} {s t : State} (h : RegisterWritten d r s t) (h7 : 7 ≤ q.toNat)
    (h18 : q.toNat ≤ 18) (hq : ¬ ReachesBank d q) : t.readReg q = s.readReg q := by
  have hbank := h q h7 h18
  unfold ReachesBank at hq
  rw [if_neg (fun h' => hq (h'.imp id fun h' => ⟨h'.1, .inr h'.2⟩)),
    if_neg (fun h' => hq (.inr ⟨h'.1, .inl h'.2⟩))] at hbank
  exact BitVec.eq_of_toNat_eq (by omega)

/-- Memory outside the byte an instruction stores to. -/
def MemoryFrame (i : Instr) (s t : State) : Prop :=
  (∀ a : Addr, storedTo i = some a → ∀ x : Nat, x ≠ a.toNat → t.mem.read x = s.mem.read x) ∧
  (storedTo i = none → MemoryKept s t)

/-- Registers outside the banks an instruction's dest code reaches. -/
def RegisterFrame (i : Instr) (s t : State) : Prop :=
  (∀ d : RegCode, registerWrittenBy i = some d →
    ∀ q : RegCode, 7 ≤ q.toNat → q.toNat ≤ 18 → ¬ ReachesBank d q → t.readReg q = s.readReg q) ∧
  (registerWrittenBy i = none → RegistersKept s t)

theorem frames_of_kept {i : Instr} {s t : State} (hreg : RegistersKept s t) (hmem : MemoryKept s t) :
    MemoryFrame i s t ∧ RegisterFrame i s t :=
  ⟨⟨fun _ _ x _ => hmem x, fun _ => hmem⟩, ⟨fun _ _ q _ _ _ => hreg q, fun _ => hreg⟩⟩

theorem Profile.frames {i : Instr} {unit : Bool} {c : OpClass} {d : Byte} {r : Int} {s t : State}
    (p : Profile i unit c d) (h : DestWritten c d r s t) : MemoryFrame i s t ∧ RegisterFrame i s t := by
  obtain ⟨_, hstored, hregister⟩ := p
  cases c with
  | R =>
    obtain ⟨hreg, hmem⟩ := h
    refine ⟨⟨fun _ _ x _ => hmem x, fun _ => hmem⟩, fun d' hd' q h7 h18 hq => ?_, fun hnone => ?_⟩
    · obtain rfl : d = d' := by simpa [hregister] using hd'
      exact hreg.kept h7 h18 hq
    · simp [hregister] at hnone
  | M =>
    obtain ⟨hmem, hreg⟩ := h
    refine ⟨⟨fun a ha x hx => ?_, fun hnone => ?_⟩, fun _ _ q _ _ _ => hreg q, fun _ => hreg⟩
    · obtain rfl : d = a := by simpa [hstored] using ha
      rw [hmem x, if_neg hx]
    · simp [hstored] at hnone
  | I => exact frames_of_kept h.1 h.2

theorem ExecReaches.frames {i : Instr} {s t : State} (h : ExecReaches i s t) (hwf : s.mem.wf = true) :
    MemoryFrame i s t ∧ RegisterFrame i s t := by
  cases h with
  | abandoned c =>
    exact frames_of_kept (readReg_congr (raise_hi s _) (raise_lo s _)) fun _ => by rw [raise_mem]
  | completed _ _ ht =>
    obtain ⟨unit, c, d, r, p, hdest⟩ := ht.destWritten hwf
    exact p.frames hdest

/-- Settles O42: one kind of destination changes, so a change of one kind rules the other kinds out, and within its kind
only the profile's operand is written. -/
theorem oneDestinationPerInstruction : Obligations.OneDestinationPerInstruction := by
  intro i s t hwf ht
  have hreach := reaches_of_exec ht
  obtain ⟨⟨hstored, hnotStored⟩, ⟨hregister, hnoRegister⟩⟩ := hreach.frames hwf
  refine ⟨(effect_of_exec ht).ir, ?_, ?_, ?_, hstored, hnotStored, hregister, hnoRegister⟩
  all_goals
    intro hchanged
    cases hreach.changedOnly <;> simp_all

end Sys2Proof.Machine
end

section
/-! PROOFS. The assembler: the bytes of one line, and the addresses of a program (30_encoding.md rules R79 to R89). -/

namespace Sys2Proof.Machine

/-! ### The bytes of a line -/

/-- The lines that assemble, by their number of tokens, with the bytes they become (R79, R88). -/
inductive Encoded (labels : Option LabelTable) : List Text → List Byte → Prop where
  | blank : Encoded labels [] []
  | zero (m : Text) (n : Mnemonic) (hn : Mnemonic.ofText m = some n) (ha : n.arity = 0) :
      Encoded labels [m] [n.opcode, 0x00]
  | one (m o : Text) (n : Mnemonic) (t : Token) (b : List Byte) (hn : Mnemonic.ofText m = some n) (ha : n.arity = 1)
      (ht : Token.ofText o = .ok t) (hb : encodeOne labels n t = .ok b) : Encoded labels [m, o] b
  | two (m d s : Text) (n : Mnemonic) (td ts : Token) (b : List Byte) (hn : Mnemonic.ofText m = some n)
      (ha : n.arity = 2) (hd : Token.ofText d = .ok td) (hs : Token.ofText s = .ok ts)
      (hb : encodeTwo n td ts = .ok b) : Encoded labels [m, d, s] b

theorem encoded_of_encodeTokens {labels : Option LabelTable} {ts : List Text} {b : List Byte}
    (h : encodeTokens labels ts = .ok b) : Encoded labels ts b := by
  unfold encodeTokens at h
  split at h
  · cases h; exact .blank
  · split at h
    · cases h
    · next hn =>
      split at h
      · next ha => cases h; exact .zero _ _ hn ha
      · next ha =>
        split at h
        · cases h
        · next ht => exact .one _ _ _ _ _ hn ha ht h
      · next ha =>
        split at h
        · cases h
        · next hd =>
          split at h
          · cases h
          · next hs => exact .two _ _ _ _ _ _ _ hn ha hd hs h
      · cases h

/-- A one-operand line becomes the opcode byte, a type byte and one operand byte, a register's code for a register
(R84, R85). -/
theorem encodeOne_ok {labels : Option LabelTable} {n : Mnemonic} {t : Token} {b : List Byte}
    (h : encodeOne labels n t = .ok b) :
    ∃ (m : Mode1) (x : Byte), b = [n.opcode, m.typeByte, x] ∧ (m.cls = .R → t = .reg x) := by
  unfold encodeOne at h
  split at h
  · cases h; exact ⟨.reg, _, rfl, fun _ => rfl⟩
  · cases h; exact ⟨.mem, _, rfl, nofun⟩
  · cases h; exact ⟨.imm, _, rfl, nofun⟩
  · cases h
  · split at h
    · split at h
      · cases h; exact ⟨.imm, _, rfl, nofun⟩
      · cases h
    · cases h

/-- A two-operand line becomes the opcode byte, a type byte and two operand bytes, dest first (R83), or is `MOV MOP, #k`
(R86). -/
theorem encodeTwo_ok {n : Mnemonic} {d s : Token} {b : List Byte} (h : encodeTwo n d s = .ok b) :
    (∃ k, b = encode (.movMop k)) ∨
    ∃ (m : Mode2) (x y : Byte), b = [n.opcode, m.typeByte, x, y] ∧ (m.dest = .R → d = .reg x) ∧
      (m.src = .R → s = .reg y) := by
  unfold encodeTwo at h
  split at h
  · cases h; exact .inr ⟨.rr, _, _, rfl, fun _ => rfl, fun _ => rfl⟩
  · cases h; exact .inr ⟨.rm, _, _, rfl, fun _ => rfl, nofun⟩
  · cases h; exact .inr ⟨.mr, _, _, rfl, nofun, fun _ => rfl⟩
  · cases h; exact .inr ⟨.ri, _, _, rfl, fun _ => rfl, nofun⟩
  · cases h; exact .inr ⟨.mm, _, _, rfl, nofun, nofun⟩
  · cases h; exact .inr ⟨.mi, _, _, rfl, nofun, nofun⟩
  · split at h
    · next hn => cases h; subst hn; exact .inl ⟨_, rfl⟩
    · cases h
  · cases h

/-! ### The length of a line -/

theorem encodeOne_length {labels : Option LabelTable} {n : Mnemonic} {t : Token} {b : List Byte}
    (h : encodeOne labels n t = .ok b) : b.length = 3 := by
  obtain ⟨m, x, rfl, _⟩ := encodeOne_ok h
  rfl

/-- Settles O50: only one-operand lines read the label table, and they have three bytes. -/
theorem encodedLengthIsPassInvariant : Obligations.EncodedLengthIsPassInvariant := by
  intro labels ts b b' h h'
  cases encoded_of_encodeTokens h with
  | blank => cases encoded_of_encodeTokens h'; rfl
  | zero => cases encoded_of_encodeTokens h'; rfl
  | one _ _ _ _ _ _ _ _ hb =>
    cases encoded_of_encodeTokens h' with
    | one _ _ _ _ _ _ _ _ hb' => rw [encodeOne_length hb, encodeOne_length hb']
  | two m d s n td ts _ hn _ hd hs hb =>
    cases encoded_of_encodeTokens h' with
    | two _ _ _ n' td' ts' _ hn' _ hd' hs' hb' =>
      obtain rfl : n = n' := Option.some.inj (hn.symm.trans hn')
      obtain rfl : td = td' := Except.ok.inj (hd.symm.trans hd')
      obtain rfl : ts = ts' := Except.ok.inj (hs.symm.trans hs')
      rw [Except.ok.inj (hb.symm.trans hb')]

/-! ### What a line's bytes decode to -/

/-- The register names name register codes (R82). -/
theorem regCodeOk_of_registerName {t : Text} {c : RegCode} (h : registerName t = some c) : regCodeOk c = true := by
  unfold registerName at h
  split at h <;> cases h <;> rfl

theorem regCodeOk_of_ofText {t : Text} {c : RegCode} (h : Token.ofText t = .ok (.reg c)) : regCodeOk c = true := by
  unfold Token.ofText at h
  split at h
  · split at h <;> cases h
  · split at h
    · split at h <;> cases h
    · cases h
  · cases h
  · split at h
    · next hname => cases h; exact regCodeOk_of_registerName hname
    · cases h

/-- The two-operand mnemonics accept all six modes (R65, R70). -/
theorem decode_two_operands {n : Mnemonic} (ha : n.arity = 2) (m : Mode2) (x y : Byte) :
    ∃ i, decode [n.opcode, m.typeByte, x, y] = .ok (i, []) ∧ registerOperands i = registerCodes [(m.dest, x), (m.src, y)] := by
  cases n <;> cases ha <;> cases m <;> exact ⟨_, rfl, rfl⟩

/-- The one-operand mnemonics accept all three modes, but for NOT with an immediate (R67, R70). -/
theorem decode_one_operand {n : Mnemonic} (ha : n.arity = 1) (m : Mode1) (x : Byte) :
    (n = .NOT ∧ m = .imm) ∨
    ∃ i, decode [n.opcode, m.typeByte, x] = .ok (i, []) ∧ registerOperands i = registerCodes [(m.cls, x)] := by
  cases n <;> cases ha <;> cases m
  case NOT.refl.imm => exact .inl ⟨rfl, rfl⟩
  all_goals exact .inr ⟨_, rfl, rfl⟩

/-- An instruction whose register operands are tokens' registers is well-formed (R68, R82). -/
theorem wellFormed_of_registerCodes {i : Instr} {os : List (OpClass × Byte)} (hos : registerOperands i = registerCodes os)
    (h : ∀ o ∈ os, o.1 = .R → ∃ t, Token.ofText t = .ok (.reg o.2)) : WellFormed i = true := by
  rw [wellFormed_eq_all, hos, List.all_eq_true]
  intro c hc
  obtain ⟨o, ho, hR⟩ := List.mem_filterMap.1 hc
  rw [Option.ite_none_right_eq_some] at hR
  obtain ⟨hclass, ⟨⟩⟩ := hR
  obtain ⟨t, ht⟩ := h o ho hclass
  exact regCodeOk_of_ofText ht

/-- Settles O52: the operand classes of the tokens choose the mode, and register tokens hold register codes. -/
theorem assembledLineDecodes : Obligations.AssembledLineDecodes := by
  intro labels ts b h hne
  cases encoded_of_encodeTokens h with
  | blank => exact absurd rfl hne
  | zero m n hn ha =>
    left
    cases n <;> cases ha
    · exact ⟨.nop 0x00, rfl, rfl⟩
    · exact ⟨.hlt 0x00, rfl, rfl⟩
  | one m o n t b hn ha ht hb =>
    obtain ⟨mode, x, rfl, hreg⟩ := encodeOne_ok hb
    rcases decode_one_operand ha mode x with ⟨rfl, rfl⟩ | ⟨i, hi, hos⟩
    · exact .inr ⟨x, rfl, rfl⟩
    · refine .inl ⟨i, hi, wellFormed_of_registerCodes hos ?_⟩
      rintro _ (_ | ⟨_, ⟨⟩⟩) hR
      exact ⟨o, by rw [ht, hreg hR]⟩
  | two m d s n td ts b hn ha hd hs hb =>
    left
    rcases encodeTwo_ok hb with ⟨k, rfl⟩ | ⟨mode, x, y, rfl, hdest, hsrc⟩
    · exact ⟨_, decode_encode (.movMop k), rfl⟩
    · obtain ⟨i, hi, hos⟩ := decode_two_operands ha mode x y
      refine ⟨i, hi, wellFormed_of_registerCodes hos ?_⟩
      rintro _ (_ | ⟨_, _ | ⟨_, ⟨⟩⟩⟩) hR
      · exact ⟨d, by rw [hd, hdest hR]⟩
      · exact ⟨s, by rw [hs, hsrc hR]⟩

/-! ### Addresses -/

/-- A binding made at the end of a table does not hide those before it. -/
theorem find_append_of_some {t u : LabelTable} {name : Text} {a : Nat} (h : t.find name = some a) :
    LabelTable.find (t ++ u) name = some a := by
  induction t with
  | nil => cases h
  | cons p t ih =>
    simp only [List.cons_append, LabelTable.find] at h ⊢
    split
    · next hp => rwa [if_pos hp] at h
    · next hp => rw [if_neg hp] at h; exact ih h

theorem find_append_of_none {t : LabelTable} {name : Text} (h : t.find name = none) (a : Nat) :
    LabelTable.find (t ++ [(name, a)]) name = some a := by
  induction t with
  | nil => simp [LabelTable.find]
  | cons p t ih =>
    simp only [List.cons_append, LabelTable.find] at h ⊢
    split
    · next hp => simp [hp] at h
    · next hp => rw [if_neg hp] at h; exact ih h

/-- Binding a line's label keeps the labels before it and gives its own the address (R92). -/
theorem bindLabel_ok {t t' : LabelTable} {name : Option Text} {a : Nat} (h : bindLabel t name a = .ok t') :
    (∀ n x, t.find n = some x → t'.find n = some x) ∧ ∀ n, name = some n → t'.find n = some a := by
  unfold bindLabel at h
  split at h
  · cases h; exact ⟨fun _ _ hx => hx, nofun⟩
  · next n =>
    split at h
    · cases h
    · next hnew =>
      cases h
      refine ⟨fun _ _ hx => find_append_of_some hx, ?_⟩
      rintro _ ⟨⟩
      exact find_append_of_none (by simpa using hnew) a

/-- What pass 1 has done with the first line when it succeeds (R89). -/
theorem passOne_cons_ok {line : Text} {rest : List Text} {a : Nat} {t : LabelTable} {r : LabelTable × Nat}
    (h : passOne (line :: rest) a t = .ok r) :
    ∃ name ts t' bytes, parseLine line = .ok (name, ts) ∧ bindLabel t name a = .ok t' ∧
      encodeTokens none ts = .ok bytes ∧ passOne rest (a + bytes.length) t' = .ok r := by
  unfold passOne at h
  split at h
  · cases h
  · next hparse =>
    split at h
    · cases h
    · next hbind =>
      split at h
      · cases h
      · next hbytes => exact ⟨_, _, _, _, hparse, hbind, hbytes, h⟩

/-- What pass 2 does with a line it can encode: the line's bytes come before those of any lines after it (R89). -/
theorem passTwo_cons {labels : LabelTable} {line : Text} {name : Option Text} {ts : List Text} {bytes : List Byte}
    (hparse : parseLine line = .ok (name, ts)) (hbytes : encodeTokens (some labels) ts = .ok bytes) (rest : List Text) :
    passTwo labels (line :: rest) = (bytes ++ (passTwo labels rest).1, (passTwo labels rest).2) := by
  simp only [passTwo, hparse, hbytes]

theorem encodeTokens_of_passTwo {labels : LabelTable} {line : Text} {rest : List Text} {name : Option Text}
    {ts : List Text} (h : (passTwo labels (line :: rest)).2 = none) (hparse : parseLine line = .ok (name, ts)) :
    ∃ bytes, encodeTokens (some labels) ts = .ok bytes := by
  cases hbytes : encodeTokens (some labels) ts with
  | ok bytes => exact ⟨bytes, rfl⟩
  | error e => simp [passTwo, hparse, hbytes] at h

theorem passOne_keeps {lines : List Text} {a : Nat} {t labels : LabelTable} {total : Nat}
    (h : passOne lines a t = .ok (labels, total)) {n : Text} {x : Nat} (hx : t.find n = some x) :
    labels.find n = some x := by
  induction lines generalizing a t with
  | nil => cases h; exact hx
  | cons line rest ih =>
    obtain ⟨_, _, t', _, _, hbind, _, hrest⟩ := passOne_cons_ok h
    exact ih hrest ((bindLabel_ok hbind).1 n x hx)

/-- From a start address and a table, the two passes reach the same addresses, whatever labels pass 2 looks up. -/
theorem passes_agree {lines : List Text} {a : Nat} {t labels looked : LabelTable} {total : Nat}
    (h1 : passOne lines a t = .ok (labels, total)) (h2 : (passTwo looked lines).2 = none) :
    a + (passTwo looked lines).1.length = total ∧
    ∀ (k : Nat) (line name : Text) (ts : List Text), lines[k]? = some line → parseLine line = .ok (some name, ts) →
      labels.find name = some (a + (passTwo looked (lines.take k)).1.length) := by
  induction lines generalizing a t with
  | nil => cases h1; exact ⟨rfl, fun _ _ _ _ hline => by simp at hline⟩
  | cons line rest ih =>
    obtain ⟨name, ts, t', bytes, hparse, hbind, hbytes, hrest⟩ := passOne_cons_ok h1
    obtain ⟨bytes', hbytes'⟩ := encodeTokens_of_passTwo h2 hparse
    have hcons := passTwo_cons hparse hbytes'
    have hlen := encodedLengthIsPassInvariant looked ts bytes bytes' hbytes hbytes'
    rw [hcons] at h2
    obtain ⟨htotal, hlabels⟩ := ih hrest h2
    refine ⟨?_, fun k line' name' ts' hline hparse' => ?_⟩
    · rw [hcons, List.length_append, ← hlen, ← htotal, Nat.add_assoc]
    · cases k with
      | zero =>
        obtain rfl : line = line' := by simpa using hline
        obtain rfl : name = some name' := by
          rw [hparse] at hparse'
          cases hparse'
          rfl
        exact passOne_keeps hrest ((bindLabel_ok hbind).2 name' rfl)
      | succ k =>
        rw [hlabels k line' name' ts' (by simpa using hline) hparse', List.take_succ_cons, hcons, List.length_append,
          ← hlen, Nat.add_assoc]

/-- Settles O51: the passes agree from address 0 and the empty table. -/
theorem assemblyIsAddressStable : Obligations.AssemblyIsAddressStable := by
  intro lines labels total h1 h2
  simpa only [Nat.zero_add] using passes_agree (looked := labels) h1 h2

end Sys2Proof.Machine
end
